-- ==== Sys2Proof/Word.lean ====
section
/-! DEFINITION. The word types of the CHIP-8 core, nothing else: bytes, 16-bit words and 12-bit addresses, all unsigned
(00_scope.md R7), and the index types that a 4-bit field selects with. -/

namespace Sys2Proof

/-- A u8: a general register, a timer, a memory byte, an immediate (R7). -/
abbrev Byte := BitVec 8

/-- A u16: an instruction word, `pc`, `I`, a return address (R7, R11, R15, R16). -/
abbrev Word := BitVec 16

/-- The 12-bit address field `nnn` (R42). -/
abbrev Addr12 := BitVec 12

/-- The number of a general register, V0 to VF (R9): a 4-bit field reaches all 16. -/
abbrev Reg := Fin 16

/-- The number of a key, 0 to 15 (R20). -/
abbrev Key := Fin 16

/-- `zext_16(nnn)` (R43). -/
def zext16 (nnn : Addr12) : Word := nnn.setWidth 16

/-- `VF`, the flag register (R10). -/
abbrev VF : Reg := 15

end Sys2Proof
end

