-- ==== Sys2Proof/Syntax.lean ====
section
/-! DEFINITION. The instruction set: one constructor for each of the 34 rows of spec/opcode_table.json
(30_encoding.md R44). -/

namespace Sys2Proof

/-- The 34 instructions of R44. Register fields are numbers 0 to 15, `nnn` is a 12-bit address, `kk` a byte, and the row
count of Dxyn is a plain count, which `Instr.wf` bounds by 15. -/
inductive Instr where
  /-- `00E0`, R73. -/
  | cls
  /-- `00EE`, R49. -/
  | ret
  /-- `1nnn`, R50. -/
  | jp (nnn : Addr12)
  /-- `Bnnn`, R51. -/
  | jpV0 (nnn : Addr12)
  /-- `2nnn`, R52. -/
  | call (nnn : Addr12)
  /-- `3xkk`, R53. -/
  | seImm (x : Reg) (kk : Byte)
  /-- `4xkk`, R54. -/
  | sneImm (x : Reg) (kk : Byte)
  /-- `5xy0`, R55. -/
  | seReg (x y : Reg)
  /-- `9xy0`, R56. -/
  | sneReg (x y : Reg)
  /-- `6xkk`, R58. -/
  | ldImm (x : Reg) (kk : Byte)
  /-- `7xkk`, R59. -/
  | addImm (x : Reg) (kk : Byte)
  /-- `8xy0`, R60. -/
  | ldReg (x y : Reg)
  /-- `8xy1`, R61. -/
  | orReg (x y : Reg)
  /-- `8xy2`, R62. -/
  | andReg (x y : Reg)
  /-- `8xy3`, R63. -/
  | xorReg (x y : Reg)
  /-- `8xy4`, R64. -/
  | addReg (x y : Reg)
  /-- `8xy5`, R65. -/
  | sub (x y : Reg)
  /-- `8xy6`, R66. `y` is decoded though the default `shift_source` does not use it (R46). -/
  | shr (x y : Reg)
  /-- `8xy7`, R67. -/
  | subn (x y : Reg)
  /-- `8xyE`, R68. `y` as for `shr`. -/
  | shl (x y : Reg)
  /-- `Annn`, R69. -/
  | ldI (nnn : Addr12)
  /-- `Fx1E`, R70. -/
  | addI (x : Reg)
  /-- `Cxkk`, R71. -/
  | rnd (x : Reg) (kk : Byte)
  /-- `Dxyn`, R74. -/
  | drw (x y : Reg) (n : Nat)
  /-- `Ex9E`, R75. -/
  | skp (x : Reg)
  /-- `ExA1`, R76. -/
  | sknp (x : Reg)
  /-- `Fx07`, R77. -/
  | ldVxDt (x : Reg)
  /-- `Fx15`, R78. -/
  | ldDtVx (x : Reg)
  /-- `Fx18`, R79. -/
  | ldStVx (x : Reg)
  /-- `Fx0A`, R80. -/
  | ldVxK (x : Reg)
  /-- `Fx29`, R82. -/
  | ldF (x : Reg)
  /-- `Fx33`, R83. -/
  | ldB (x : Reg)
  /-- `Fx55`, R84. -/
  | ldMemStore (x : Reg)
  /-- `Fx65`, R85. -/
  | ldMemLoad (x : Reg)
  deriving DecidableEq, Repr

end Sys2Proof
end

