-- ==== Sys2Proof/WellFormed.lean ====
section
/-! DEFINITION. Which terms of `Instr` are instructions of the hardware. Every field but one is bounded by its type; the
row count of Dxyn is the field that needs a check (30_encoding.md R42, R43). -/

namespace Sys2Proof

/-- The largest row count a 4-bit `n` can hold: "up to 15 rows" (R43). -/
def maxRows : Nat := 15

/-- A term is well formed when each of its fields fits the instruction word (R42, R43). -/
def Instr.wf : Instr → Bool
  | .drw _ _ n => n ≤ maxRows
  | .cls => true
  | .ret => true
  | .jp _ => true
  | .jpV0 _ => true
  | .call _ => true
  | .seImm _ _ => true
  | .sneImm _ _ => true
  | .seReg _ _ => true
  | .sneReg _ _ => true
  | .ldImm _ _ => true
  | .addImm _ _ => true
  | .ldReg _ _ => true
  | .orReg _ _ => true
  | .andReg _ _ => true
  | .xorReg _ _ => true
  | .addReg _ _ => true
  | .sub _ _ => true
  | .shr _ _ => true
  | .subn _ _ => true
  | .shl _ _ => true
  | .ldI _ => true
  | .addI _ => true
  | .rnd _ _ => true
  | .skp _ => true
  | .sknp _ => true
  | .ldVxDt _ => true
  | .ldDtVx _ => true
  | .ldStVx _ => true
  | .ldVxK _ => true
  | .ldF _ => true
  | .ldB _ => true
  | .ldMemStore _ => true
  | .ldMemLoad _ => true

end Sys2Proof
end

