-- ==== Sys2Proof/Decode.lean ====
section
/-! DEFINITION. Decoding, total on any word and on any bytes, and after it the encoder, both from the opcode map of
30_encoding.md R42 to R46 (decision D4: the encodings are the conventional ones). -/

namespace Sys2Proof

/-- `op = w[15:12]` (R42). -/
def fieldOp (w : Word) : BitVec 4 := w.extractLsb' 12 4

/-- `nnn = w[11:0]` (R42). -/
def fieldNNN (w : Word) : Addr12 := w.extractLsb' 0 12

/-- `x = w[11:8]` (R42). -/
def fieldX (w : Word) : Reg := (w.extractLsb' 8 4).toFin

/-- `y = w[7:4]` (R42). -/
def fieldY (w : Word) : Reg := (w.extractLsb' 4 4).toFin

/-- `n = w[3:0]` (R42). -/
def fieldN (w : Word) : BitVec 4 := w.extractLsb' 0 4

/-- `kk = w[7:0]` (R42). -/
def fieldKK (w : Word) : Byte := w.extractLsb' 0 8

/-- Family 0: only 00E0 and 00EE (R44, R46). -/
def decode0 (w : Word) : Option Instr :=
  if w = 0x00E0#16 then some .cls
  else if w = 0x00EE#16 then some .ret
  else none

/-- Family 8, by `n` (R44, R45). -/
def decode8 (w : Word) : Option Instr :=
  if fieldN w = 0x0#4 then some (.ldReg (fieldX w) (fieldY w))
  else if fieldN w = 0x1#4 then some (.orReg (fieldX w) (fieldY w))
  else if fieldN w = 0x2#4 then some (.andReg (fieldX w) (fieldY w))
  else if fieldN w = 0x3#4 then some (.xorReg (fieldX w) (fieldY w))
  else if fieldN w = 0x4#4 then some (.addReg (fieldX w) (fieldY w))
  else if fieldN w = 0x5#4 then some (.sub (fieldX w) (fieldY w))
  else if fieldN w = 0x6#4 then some (.shr (fieldX w) (fieldY w))
  else if fieldN w = 0x7#4 then some (.subn (fieldX w) (fieldY w))
  else if fieldN w = 0xE#4 then some (.shl (fieldX w) (fieldY w))
  else none

/-- Family E, by `kk` (R44, R45). -/
def decodeE (w : Word) : Option Instr :=
  if fieldKK w = 0x9E#8 then some (.skp (fieldX w))
  else if fieldKK w = 0xA1#8 then some (.sknp (fieldX w))
  else none

/-- Family F, by `kk` (R44, R45). -/
def decodeF (w : Word) : Option Instr :=
  if fieldKK w = 0x07#8 then some (.ldVxDt (fieldX w))
  else if fieldKK w = 0x0A#8 then some (.ldVxK (fieldX w))
  else if fieldKK w = 0x15#8 then some (.ldDtVx (fieldX w))
  else if fieldKK w = 0x18#8 then some (.ldStVx (fieldX w))
  else if fieldKK w = 0x1E#8 then some (.addI (fieldX w))
  else if fieldKK w = 0x29#8 then some (.ldF (fieldX w))
  else if fieldKK w = 0x33#8 then some (.ldB (fieldX w))
  else if fieldKK w = 0x55#8 then some (.ldMemStore (fieldX w))
  else if fieldKK w = 0x65#8 then some (.ldMemLoad (fieldX w))
  else none

/-- `Decode` (R46): the instruction of a word, or `none` where the word is unknown (R45). It reads nothing but `w`. -/
def decode (w : Word) : Option Instr :=
  if fieldOp w = 0x0#4 then decode0 w
  else if fieldOp w = 0x1#4 then some (.jp (fieldNNN w))
  else if fieldOp w = 0x2#4 then some (.call (fieldNNN w))
  else if fieldOp w = 0x3#4 then some (.seImm (fieldX w) (fieldKK w))
  else if fieldOp w = 0x4#4 then some (.sneImm (fieldX w) (fieldKK w))
  else if fieldOp w = 0x5#4 then
    if fieldN w = 0x0#4 then some (.seReg (fieldX w) (fieldY w)) else none
  else if fieldOp w = 0x6#4 then some (.ldImm (fieldX w) (fieldKK w))
  else if fieldOp w = 0x7#4 then some (.addImm (fieldX w) (fieldKK w))
  else if fieldOp w = 0x8#4 then decode8 w
  else if fieldOp w = 0x9#4 then
    if fieldN w = 0x0#4 then some (.sneReg (fieldX w) (fieldY w)) else none
  else if fieldOp w = 0xA#4 then some (.ldI (fieldNNN w))
  else if fieldOp w = 0xB#4 then some (.jpV0 (fieldNNN w))
  else if fieldOp w = 0xC#4 then some (.rnd (fieldX w) (fieldKK w))
  else if fieldOp w = 0xD#4 then some (.drw (fieldX w) (fieldY w) (fieldN w).toNat)
  else if fieldOp w = 0xE#4 then decodeE w
  else decodeF w

/-- The big-endian word of two bytes, the byte of the lower address first (R30). -/
def wordOfBytes (hi lo : Byte) : Word := hi ++ lo

/-- The high byte of a word, which stands at the lower address (R30). -/
def hiByte (w : Word) : Byte := w.extractLsb' 8 8

/-- The low byte of a word (R30). -/
def loByte (w : Word) : Byte := w.extractLsb' 0 8

/-- Why bytes decode to no instruction. -/
inductive DecodeReject where
  /-- The word is one of the unknown words of R45. Raised by `decodeBytes`; safe: the machine reports it (R90). -/
  | unknownWord (w : Word)
  /-- Fewer than the two bytes every instruction has (R41). Raised by `decodeBytes`; safe: a fetch always has two. -/
  | truncated
  deriving DecidableEq, Repr

/-- Decoding a list of bytes: the instruction of the first two (R30, R41) with the bytes that follow it, or the reason
there is none. -/
def decodeBytes : List Byte → Except DecodeReject (Instr × List Byte)
  | hi :: lo :: rest =>
    match decode (wordOfBytes hi lo) with
    | some i => .ok (i, rest)
    | none => .error (.unknownWord (wordOfBytes hi lo))
  | [_] => .error .truncated
  | [] => .error .truncated

/-- The bytes of a table word as the hardware stores them: one big-endian word, the bits above `nbits` zero (R30, R41). -/
def tableBytes (nbits w : Nat) : List Byte :=
  [hiByte (BitVec.ofNat 16 (w % 2 ^ nbits)), loByte (BitVec.ofNat 16 (w % 2 ^ nbits))]

/-- What `decodeBytes` reads from an instruction whose bits spec/opcode_table.json numbers as `w`. -/
def decodeTableWord (nbits w : Nat) : Option Instr :=
  match decodeBytes (tableBytes nbits w) with
  | .ok (i, _) => some i
  | .error _ => none

/-! The encoder. -/

/-- A 4-bit field that holds a register number (R42). -/
def regField (x : Reg) : BitVec 4 := BitVec.ofFin x

/-- `| op | nnn |` (R42). -/
def packNNN (op : BitVec 4) (nnn : Addr12) : Word := op ++ nnn

/-- `| op | x | kk |` (R42). -/
def packXKK (op : BitVec 4) (x : Reg) (kk : Byte) : Word := op ++ regField x ++ kk

/-- `| op | x | y | n |` (R42). -/
def packXYN (op : BitVec 4) (x y : Reg) (n : BitVec 4) : Word := op ++ regField x ++ regField y ++ n

/-- The word of a well-formed instruction (R44). -/
def encode : Instr → Word
  | .cls => 0x00E0#16
  | .ret => 0x00EE#16
  | .jp nnn => packNNN 0x1#4 nnn
  | .jpV0 nnn => packNNN 0xB#4 nnn
  | .call nnn => packNNN 0x2#4 nnn
  | .seImm x kk => packXKK 0x3#4 x kk
  | .sneImm x kk => packXKK 0x4#4 x kk
  | .seReg x y => packXYN 0x5#4 x y 0x0#4
  | .sneReg x y => packXYN 0x9#4 x y 0x0#4
  | .ldImm x kk => packXKK 0x6#4 x kk
  | .addImm x kk => packXKK 0x7#4 x kk
  | .ldReg x y => packXYN 0x8#4 x y 0x0#4
  | .orReg x y => packXYN 0x8#4 x y 0x1#4
  | .andReg x y => packXYN 0x8#4 x y 0x2#4
  | .xorReg x y => packXYN 0x8#4 x y 0x3#4
  | .addReg x y => packXYN 0x8#4 x y 0x4#4
  | .sub x y => packXYN 0x8#4 x y 0x5#4
  | .shr x y => packXYN 0x8#4 x y 0x6#4
  | .subn x y => packXYN 0x8#4 x y 0x7#4
  | .shl x y => packXYN 0x8#4 x y 0xE#4
  | .ldI nnn => packNNN 0xA#4 nnn
  | .addI x => packXKK 0xF#4 x 0x1E#8
  | .rnd x kk => packXKK 0xC#4 x kk
  | .drw x y n => packXYN 0xD#4 x y (BitVec.ofNat 4 n)
  | .skp x => packXKK 0xE#4 x 0x9E#8
  | .sknp x => packXKK 0xE#4 x 0xA1#8
  | .ldVxDt x => packXKK 0xF#4 x 0x07#8
  | .ldDtVx x => packXKK 0xF#4 x 0x15#8
  | .ldStVx x => packXKK 0xF#4 x 0x18#8
  | .ldVxK x => packXKK 0xF#4 x 0x0A#8
  | .ldF x => packXKK 0xF#4 x 0x29#8
  | .ldB x => packXKK 0xF#4 x 0x33#8
  | .ldMemStore x => packXKK 0xF#4 x 0x55#8
  | .ldMemLoad x => packXKK 0xF#4 x 0x65#8

/-- The instruction's bytes in the order they stand in memory (R30). -/
def encodeBytes (i : Instr) : List Byte := [hiByte (encode i), loByte (encode i)]

/-- The `mask` of an instruction's row in spec/opcode_table.json: the bits its pattern fixes. -/
def rowMask : Instr → Word
  | .cls => 0xFFFF#16
  | .ret => 0xFFFF#16
  | .jp _ => 0xF000#16
  | .jpV0 _ => 0xF000#16
  | .call _ => 0xF000#16
  | .seImm _ _ => 0xF000#16
  | .sneImm _ _ => 0xF000#16
  | .seReg _ _ => 0xF00F#16
  | .sneReg _ _ => 0xF00F#16
  | .ldImm _ _ => 0xF000#16
  | .addImm _ _ => 0xF000#16
  | .ldReg _ _ => 0xF00F#16
  | .orReg _ _ => 0xF00F#16
  | .andReg _ _ => 0xF00F#16
  | .xorReg _ _ => 0xF00F#16
  | .addReg _ _ => 0xF00F#16
  | .sub _ _ => 0xF00F#16
  | .shr _ _ => 0xF00F#16
  | .subn _ _ => 0xF00F#16
  | .shl _ _ => 0xF00F#16
  | .ldI _ => 0xF000#16
  | .addI _ => 0xF0FF#16
  | .rnd _ _ => 0xF000#16
  | .drw _ _ _ => 0xF000#16
  | .skp _ => 0xF0FF#16
  | .sknp _ => 0xF0FF#16
  | .ldVxDt _ => 0xF0FF#16
  | .ldDtVx _ => 0xF0FF#16
  | .ldStVx _ => 0xF0FF#16
  | .ldVxK _ => 0xF0FF#16
  | .ldF _ => 0xF0FF#16
  | .ldB _ => 0xF0FF#16
  | .ldMemStore _ => 0xF0FF#16
  | .ldMemLoad _ => 0xF0FF#16

/-- The `match` of an instruction's row in spec/opcode_table.json: the value of the fixed bits. -/
def rowMatch : Instr → Word
  | .cls => 0x00E0#16
  | .ret => 0x00EE#16
  | .jp _ => 0x1000#16
  | .jpV0 _ => 0xB000#16
  | .call _ => 0x2000#16
  | .seImm _ _ => 0x3000#16
  | .sneImm _ _ => 0x4000#16
  | .seReg _ _ => 0x5000#16
  | .sneReg _ _ => 0x9000#16
  | .ldImm _ _ => 0x6000#16
  | .addImm _ _ => 0x7000#16
  | .ldReg _ _ => 0x8000#16
  | .orReg _ _ => 0x8001#16
  | .andReg _ _ => 0x8002#16
  | .xorReg _ _ => 0x8003#16
  | .addReg _ _ => 0x8004#16
  | .sub _ _ => 0x8005#16
  | .shr _ _ => 0x8006#16
  | .subn _ _ => 0x8007#16
  | .shl _ _ => 0x800E#16
  | .ldI _ => 0xA000#16
  | .addI _ => 0xF01E#16
  | .rnd _ _ => 0xC000#16
  | .drw _ _ _ => 0xD000#16
  | .skp _ => 0xE09E#16
  | .sknp _ => 0xE0A1#16
  | .ldVxDt _ => 0xF007#16
  | .ldDtVx _ => 0xF015#16
  | .ldStVx _ => 0xF018#16
  | .ldVxK _ => 0xF00A#16
  | .ldF _ => 0xF029#16
  | .ldB _ => 0xF033#16
  | .ldMemStore _ => 0xF055#16
  | .ldMemLoad _ => 0xF065#16

end Sys2Proof
end

