-- ==== Sys2Proof/Config.lean ====
section
/-! DEFINITION. What is fixed for the machine (00_scope.md R5) and the values the spec leaves free. The two parameters
that choose a quirk (`shift_source`, `jump_offset_reg`) have their TYPES here and their chosen values in
Machine/Operands.lean; the parameter `font_glyphs` stands in Machine/Ops.lean. -/

namespace Sys2Proof.Config

/-- `MEM_SIZE` (R5, R28, decision D1). DESIGN CHOICE of the spec, assumption 1. -/
abbrev memSize : Nat := 4096

/-- `PROG_ORIGIN` (R5, R34, decision D2). DESIGN CHOICE of the spec, assumption 1. -/
abbrev progOrigin : Nat := 0x200

/-- `MAX_ROM = MEM_SIZE - PROG_ORIGIN` (R5, R105). -/
abbrev maxRom : Nat := memSize - progOrigin

/-- `FONT_BASE` (R5, R82). -/
abbrev fontBase : Nat := 0

/-- `FONT_GLYPH_BYTES` (R5, R82). -/
abbrev fontGlyphBytes : Nat := 5

/-- `STACK_DEPTH` (R5, R16). -/
abbrev stackDepth : Nat := 16

/-- `DISP_W` (R5, R21). -/
abbrev dispW : Nat := 64

/-- `DISP_H` (R5, R21). -/
abbrev dispH : Nat := 32

/-- `cpu_rate` in Hz, informative only: no rule uses it (R5, R116). -/
def cpuRate : Nat := 1000

/-- `timer_rate` in Hz, informative only: no rule uses it (R5, R116). -/
def timerRate : Nat := 60

/-- Which register 8xy6 and 8xyE shift: the parameter `shift_source` (R66, R68, decision D6). -/
inductive ShiftSource where
  | vx
  | vy
  deriving DecidableEq, Repr

/-- Which register biases Bnnn: the parameter `jump_offset_reg` (R51, decision D7). -/
inductive JumpOffsetReg where
  | v0
  | vx
  deriving DecidableEq, Repr

/-- An RGB triple of three u8 (R24). -/
structure Rgb where
  r : Byte
  g : Byte
  b : Byte
  deriving DecidableEq, Repr, Inhabited

/-- FREE VALUE (R71, decision D19; assumption 3). `randomByte n` is the byte `draw_random()` gives to the `n`-th Cxkk
that completes. It has no body, so nothing in Lean knows any of its values. -/
opaque randomByte : Nat → Byte

/-- FREE VALUE (R24, R98, decision D23; assumption 4). The foreground of the open default pair. -/
opaque defaultFg : Rgb

/-- FREE VALUE (R24, R98, decision D23; assumption 4). The background of the open default pair. -/
opaque defaultBg : Rgb

end Sys2Proof.Config

namespace Sys2Proof.Machine

/-- The pair of render colours (R24, R98). -/
structure Colours where
  fg : Config.Rgb
  bg : Config.Rgb
  deriving DecidableEq, Repr

/-- The host operations after Construct (60_exceptions.md R94). -/
inductive HostOp where
  /-- One instruction (R48). -/
  | advance
  /-- One timer decrement (R95). -/
  | tick
  /-- One latch update (R96). -/
  | keyEvent (k : Key) (pressed : Bool)
  /-- A pure read of the display buffer (R97). -/
  | render
  /-- The one setting of the render colours (R98). -/
  | setColours (colours : Colours)
  deriving DecidableEq, Repr, Inhabited

end Sys2Proof.Machine

namespace Sys2Proof.Config

/-- FREE VALUE (R27, R94, R103, decision D20; assumption 5). `hostOrder n` is the `n`-th operation of a host whose order
is open. It has no body, so nothing in Lean knows how often, or whether ever, it issues an operation. -/
opaque hostOrder : Nat → Machine.HostOp

end Sys2Proof.Config
end

