-- ==== Sys2Proof/Machine/State.lean ====
section
/-! DEFINITION. The state of the machine as plain data (10_state.md), the reasons a step can stop, and the state after
Construct (70_reset_and_hazards.md R105, R108). -/

namespace Sys2Proof.Machine

/-- The byte memory (20_memory.md R28): the bytes that differ from the image an empty ROM leaves, in one canonical form
(`Memory.wf` in Machine/Ops.lean). -/
abbrev Memory := List Host.Cell

/-- The display buffer `disp[y][x]`, 32 rows of 64 single-bit cells (R21). -/
abbrev Display := Vector (Vector Bool 64) 32

/-- The fatal causes that an Advance can raise, each with the information R87 has it record. -/
inductive Cause where
  /-- 2nnn with `SP = 16` (R52). -/
  | stackOverflow
  /-- 00EE with `SP = 0` (R49). -/
  | stackUnderflow
  /-- An access at or beyond `MEM_SIZE`, with the lowest faulting address (R28, R30, R87). -/
  | addressFault (address : Nat)
  deriving DecidableEq, Repr

/-- The run status (R23). -/
inductive RunStatus where
  | running
  | halted (cause : Cause)
  deriving DecidableEq, Repr

/-- The input-wait sub-states of R22: idle, awaiting a press, awaiting the release of `k`. `State.waiting` and
`State.candidate` (Machine/Ops.lean) read the spec's two names from it (assumption 15). -/
inductive WaitState where
  /-- `waiting = false, candidate = none`. -/
  | idle
  /-- `waiting = true, candidate = none`. -/
  | awaitingPress
  /-- `waiting = true, candidate = some k`. -/
  | awaitingRelease (k : Key)
  deriving DecidableEq, Repr

/-- One record of the diagnostic log: the address and the word of an unknown instruction (R90). -/
structure DiagRecord where
  pc0 : Word
  word : Word
  deriving DecidableEq, Repr

/-- Where the host's operations come from once `State.schedule` is empty (R94, R103; assumption 5). -/
inductive HostTail where
  /-- The host's order is open: its operations are those of the free value `Config.hostOrder` from number `n` on. -/
  | openFrom (n : Nat)
  /-- This host issues Advance and nothing else. -/
  | advances
  deriving DecidableEq, Repr

/-- Everything the spec gives the machine, and three fields of the model's own (`draws`, `schedule`, `tail`). -/
structure State where
  /-- `V[0]`..`V[15]` (R9); `V[15]` is the flag register VF (R10). -/
  V : Vector Byte 16
  /-- The program counter (R11). -/
  pc : Word
  /-- The index register (R15). -/
  I : Word
  /-- The stack pointer: the number of stack entries in use (R16). -/
  SP : Byte
  /-- The call stack (R16). -/
  stack : Vector Word 16
  /-- The delay timer (R18). -/
  DT : Byte
  /-- The sound timer (R19). -/
  ST : Byte
  /-- The keypad latches, true for pressed (R20). -/
  key : Vector Bool 16
  /-- The display buffer (R21). -/
  disp : Display
  /-- The byte memory (R28). -/
  mem : Memory
  /-- The input-wait state (R22). -/
  wait : WaitState
  /-- The run status (R23). -/
  status : RunStatus
  /-- The diagnostic log, oldest record first (R23, R90). -/
  diag : List DiagRecord
  /-- The colours set by Construct or SetColours; `none` while never set, when the open default pair holds (R24, R98;
  assumption 22). -/
  colours : Option Colours
  /-- THE MODEL'S OWN: how many random bytes have been drawn, the argument of the free value `Config.randomByte`
  (R71; assumption 3). -/
  draws : Nat
  /-- THE MODEL'S OWN: the host operations that come next, first one first (R27, R94; assumption 5). -/
  schedule : List HostOp
  /-- THE MODEL'S OWN: where the host's operations come from after those (R94, R103; assumption 5). -/
  tail : HostTail
  deriving DecidableEq, Repr

/-- Why a step has no next state and the machine stays stuck. -/
inductive Fault where
  /-- The session is over: Advance, Tick, KeyEvent and SetColours have no step once the status is Halted (R89(4)).
  Raised by `applyOp` (and so by `step`), never by an instruction. Safe: the spec gives such a state no successor
  (assumption 12). -/
  | halted (cause : Cause)
  /-- A push or a pop with `SP > 16`, a value R16 says SP never holds. Raised by 2nnn and 00EE. Safe: no state reached
  from Construct has it, and nothing is claimed of what would follow (assumption 7). -/
  | stackPointerIllegal
  deriving DecidableEq, Repr

/-- Why the machine declines an operation. -/
inductive Refusal where
  /-- No meaning has been written for the instruction. Raised by `exec` only; safe. No arm raises it now. -/
  | notModelled (mnemonic : String)
  /-- A SetColours after the colours were set: "settable once" (R98). Raised by `setColours`; safe: the spec refuses the
  operation and changes nothing (assumption 6). -/
  | coloursAlreadySet
  deriving DecidableEq, Repr

/-- The state after Construct with an empty ROM and no colours (R25, R105, R108; assumption 17). -/
def State.reset : State where
  V := Vector.replicate 16 0#8
  pc := BitVec.ofNat 16 Config.progOrigin
  I := 0#16
  SP := 0#8
  stack := Vector.replicate 16 0#16
  DT := 0#8
  ST := 0#8
  key := Vector.replicate 16 false
  disp := Vector.replicate 32 (Vector.replicate 64 false)
  mem := []
  wait := .idle
  status := .running
  diag := []
  colours := none
  draws := 0
  schedule := []
  tail := .openFrom 0

end Sys2Proof.Machine
end

