-- ==== Sys2Proof/Machine/Ops.lean ====
section
/-! DEFINITION. The named operations over memory, registers, the stack and the run status that every meaning is written
with: reading and writing memory (20_memory.md R28 to R31), the field updates of State, moving `pc` (10_state.md R12),
the call stack (R17), the fatal failure (60_exceptions.md R89) and the non-fatal report (R90). -/

namespace Sys2Proof.Machine

/-! ## Memory -/

/-- The 80 font bytes, glyph d at `5 * d` (R107, decision D3; assumption 2). -/
def fontGlyphs : List Byte :=
  [0xF0, 0x90, 0x90, 0x90, 0xF0] ++   -- 0
  [0x20, 0x60, 0x20, 0x20, 0x70] ++   -- 1
  [0xF0, 0x10, 0xF0, 0x80, 0xF0] ++   -- 2
  [0xF0, 0x10, 0xF0, 0x10, 0xF0] ++   -- 3
  [0x90, 0x90, 0xF0, 0x10, 0x10] ++   -- 4
  [0xF0, 0x80, 0xF0, 0x10, 0xF0] ++   -- 5
  [0xF0, 0x80, 0xF0, 0x90, 0xF0] ++   -- 6
  [0xF0, 0x10, 0x20, 0x40, 0x40] ++   -- 7
  [0xF0, 0x90, 0xF0, 0x90, 0xF0] ++   -- 8
  [0xF0, 0x90, 0xF0, 0x10, 0xF0] ++   -- 9
  [0xF0, 0x90, 0xF0, 0x90, 0x90] ++   -- A
  [0xE0, 0x90, 0xE0, 0x90, 0xE0] ++   -- B
  [0xF0, 0x80, 0x80, 0x80, 0xF0] ++   -- C
  [0xE0, 0x90, 0x90, 0x90, 0xE0] ++   -- D
  [0xF0, 0x80, 0xF0, 0x80, 0xF0] ++   -- E
  [0xF0, 0x80, 0xF0, 0x80, 0x80]      -- F

/-- What an unlisted address reads as: the image of an empty ROM, the font in the first 80 bytes and zero elsewhere
(R34, R106). -/
def resetByte (a : Nat) : Byte :=
  if Config.fontBase ≤ a then fontGlyphs.getD (a - Config.fontBase) 0#8 else 0#8

/-- The byte at `a`, with no range check. -/
def Memory.read : Memory → Nat → Byte
  | [], a => resetByte a
  | (k, b) :: rest, a => if k = a then b else Memory.read rest a

/-- The memory after the byte at `a` becomes `v`, with no range check. It keeps the canonical form: an entry stands in
its place by address, and an entry equal to what its address reads as anyway is left out. -/
def Memory.write : Memory → Nat → Byte → Memory
  | [], a, v => if v = resetByte a then [] else [(a, v)]
  | (k, b) :: rest, a, v =>
    if a < k then (if v = resetByte a then (k, b) :: rest else (a, v) :: (k, b) :: rest)
    else if a = k then (if v = resetByte a then rest else (a, v) :: rest)
    else (k, b) :: Memory.write rest a v

/-- The canonical form of the entries from address `lo` on: addresses strictly rising and below `MEM_SIZE`, and no entry
equal to what its address reads as when unlisted. -/
def Memory.wfFrom : Nat → Memory → Bool
  | _, [] => true
  | lo, (a, b) :: rest =>
    decide (lo ≤ a) && decide (a < Config.memSize) && decide (b ≠ resetByte a) && Memory.wfFrom (a + 1) rest

/-- The canonical form of a memory. -/
def Memory.wf (m : Memory) : Bool := Memory.wfFrom 0 m

/-- How an operation inside an Advance can end early: the spec's `raise`, or a stuck state of the model. -/
inductive Stop where
  /-- A fatal cause (R8, R87). -/
  | raise (cause : Cause)
  /-- No rule of the spec covers the state. -/
  | stuck (fault : Fault)
  deriving DecidableEq, Repr

/-- `MemRead(a, 1)` (R28). -/
def memRead (m : Memory) (a : Nat) : Except Stop Byte :=
  if Config.memSize ≤ a then .error (.raise (.addressFault a)) else .ok (m.read a)

/-- `MemWrite(a, 1, v)` (R28). -/
def memWrite (m : Memory) (a : Nat) (v : Byte) : Except Stop Memory :=
  if Config.memSize ≤ a then .error (.raise (.addressFault a)) else .ok (m.write a v)

/-- `n` single-byte reads from `a` upward, at exact addresses, in order (R29, R32). -/
def readBytes (m : Memory) : Nat → Nat → Except Stop (List Byte)
  | _, 0 => .ok []
  | a, n + 1 =>
    match memRead m a with
    | .error e => .error e
    | .ok b =>
      match readBytes m (a + 1) n with
      | .error e => .error e
      | .ok bs => .ok (b :: bs)

/-- Single-byte writes of a list from `a` upward, at exact addresses, in order (R29, R32). -/
def writeBytes (m : Memory) : Nat → List Byte → Except Stop Memory
  | _, [] => .ok m
  | a, b :: bs =>
    match memWrite m a b with
    | .error e => .error e
    | .ok m' => writeBytes m' (a + 1) bs

/-- `Fetch()` at `pc` (R30): the byte at the lower address is the more significant one. -/
def fetch (m : Memory) (pc : Word) : Except Stop Word :=
  match memRead m pc.toNat with
  | .error e => .error e
  | .ok hi =>
    match memRead m (pc.toNat + 1) with
    | .error e => .error e
    | .ok lo => .ok (wordOfBytes hi lo)

/-! ## The fields of State -/

/-- `V[x] <- v`. -/
def State.setV (s : State) (x : Reg) (v : Byte) : State := { s with V := s.V.set x.val v x.isLt }

/-- All sixteen general registers at once (Fx65). -/
def State.setRegs (s : State) (v : Vector Byte 16) : State := { s with V := v }

/-- `pc <- a`. -/
def State.setPc (s : State) (a : Word) : State := { s with pc := a }

/-- `I <- a`. -/
def State.setI (s : State) (a : Word) : State := { s with I := a }

/-- `SP <- n`. -/
def State.setSP (s : State) (n : Byte) : State := { s with SP := n }

/-- `stack[j] <- v`. -/
def State.setStack (s : State) (j : Fin 16) (v : Word) : State := { s with stack := s.stack.set j.val v j.isLt }

/-- `DT <- v`. -/
def State.setDT (s : State) (v : Byte) : State := { s with DT := v }

/-- `ST <- v`. -/
def State.setST (s : State) (v : Byte) : State := { s with ST := v }

/-- `key[k] <- p`. -/
def State.setKey (s : State) (k : Key) (p : Bool) : State := { s with key := s.key.set k.val p k.isLt }

/-- The whole display buffer. -/
def State.setDisp (s : State) (d : Display) : State := { s with disp := d }

/-- The whole byte memory. -/
def State.setMem (s : State) (m : Memory) : State := { s with mem := m }

/-- The input-wait sub-state. -/
def State.setWait (s : State) (w : WaitState) : State := { s with wait := w }

/-- `status <- r`. -/
def State.setStatus (s : State) (r : RunStatus) : State := { s with status := r }

/-- `diag <- diag ++ [r]` (R90). -/
def State.appendDiag (s : State) (r : DiagRecord) : State := { s with diag := s.diag ++ [r] }

/-- The render colours are set (R98). -/
def State.setColours (s : State) (c : Colours) : State := { s with colours := some c }

/-- One more random byte has been drawn (R71). -/
def State.countDraw (s : State) : State := { s with draws := s.draws + 1 }

/-- The host operations still to come. -/
def State.setSchedule (s : State) (ops : List HostOp) : State := { s with schedule := ops }

/-- Where the host operations after those come from. -/
def State.setTail (s : State) (r : HostTail) : State := { s with tail := r }

/-- `waiting` (R22). -/
def State.waiting (s : State) : Bool :=
  match s.wait with
  | .idle => false
  | .awaitingPress => true
  | .awaitingRelease _ => true

/-- `candidate` (R22). -/
def State.candidate (s : State) : Option Key :=
  match s.wait with
  | .idle => none
  | .awaitingPress => none
  | .awaitingRelease k => some k

/-! ## Moving the program counter (R12); sums are modulo 2^16 (R14) -/

/-- `pc <- pc0 + 2`. -/
def State.advancePc (s : State) : State := s.setPc (s.pc + 2#16)

/-- `pc <- pc0 + 4` where the condition of a skip holds, else `pc <- pc0 + 2`. -/
def State.skipIf (s : State) (c : Bool) : State := if c then s.setPc (s.pc + 4#16) else s.advancePc

/-! ## Taking a fatal cause, and the report

This hardware has no trap entry and no return from one (R92): taking a cause stops the machine, and nothing resumes it. -/

/-- The fatal failure (R89, decision D13; assumption 12): from the state BEFORE the Advance, only the status changes. -/
def takeFatal (cause : Cause) (s : State) : Host.Outcome State Fault Refusal :=
  .next (s.setStatus (.halted cause))

/-- The end of an Advance that began in `s` (R88, R89): its result where nothing was raised, the fatal failure taken in
`s` where a cause was, so that no write of the Advance takes effect. -/
def finish (s : State) (r : Except Stop State) : Host.Outcome State Fault Refusal :=
  match r with
  | .ok s' => .next s'
  | .error (.raise c) => takeFatal c s
  | .error (.stuck f) => .fault f

/-- An unknown instruction (R90, decision D14; assumption 16): the report, and `pc <- pc0 + 2`. -/
def reportUnknown (w : Word) (s : State) : Host.Outcome State Fault Refusal :=
  .next (s.appendDiag ⟨s.pc, w⟩).advancePc

/-! ## The call stack (R17) -/

/-- `Push(v)`. A value of SP above 16, which R16 rules out, is stuck (assumption 7). -/
def push (v : Word) (s : State) : Except Stop State :=
  if h : s.SP.toNat < Config.stackDepth then .ok ((s.setStack ⟨s.SP.toNat, h⟩ v).setSP (s.SP + 1#8))
  else if s.SP.toNat = Config.stackDepth then .error (.raise .stackOverflow)
  else .error (.stuck .stackPointerIllegal)

/-- `Pop()`: the popped value and the state after it; the entry keeps its old value. A value of SP above 16, which R16
rules out, is stuck (assumption 7). -/
def pop (s : State) : Except Stop (Word × State) :=
  if s.SP = 0#8 then .error (.raise .stackUnderflow)
  else if h : s.SP.toNat - 1 < Config.stackDepth then .ok (s.stack[s.SP.toNat - 1], s.setSP (s.SP - 1#8))
  else .error (.stuck .stackPointerIllegal)

/-! ## Cause codes (R87), labels that no instruction can read -/

/-- The code of a fatal cause. -/
def Cause.code : Cause → Nat
  | .stackOverflow => 2
  | .stackUnderflow => 3
  | .addressFault _ => 5

/-- The code of the report of an unknown instruction. -/
def DiagRecord.code (_ : DiagRecord) : Nat := 4

end Sys2Proof.Machine
end

