-- ==== Sys2Proof/Machine/Operands.lean ====
section
/-! DEFINITION. Every operand form of the instruction set (30_encoding.md R43) and the two parameters that choose an
operand (00_scope.md R5). -/

namespace Sys2Proof.Machine

/-- `V[x]`. -/
def reg (s : State) (x : Reg) : Byte := s.V[x.val]

/-- `v AND 0xF` as a number, the "low 4 bits" of Fx29, Ex9E and ExA1 (R43). -/
def lowNibble (v : Byte) : Fin 16 := (v.extractLsb' 0 4).toFin

/-- `key[k]`. -/
def keyDown (s : State) (k : Key) : Bool := s.key[k.val]

/-- `key[V[x] AND 0xF]`, the latch that Ex9E and ExA1 test (R75, R76). -/
def keyNamedBy (s : State) (x : Reg) : Bool := keyDown s (lowNibble (reg s x))

/-- The value of the parameter `shift_source`: `Vx` (R5, R66, decision D6; assumption 8). -/
def shiftSource : Config.ShiftSource := .vx

/-- The value of the parameter `jump_offset_reg`: `V0` (R5, R51, decision D7; assumption 9). -/
def jumpOffsetReg : Config.JumpOffsetReg := .v0

/-- The operand of a shift, for either value of `shift_source` (R66, R68). -/
def shiftOperand (src : Config.ShiftSource) (x y : Reg) (s : State) : Byte :=
  match src with
  | .vx => reg s x
  | .vy => reg s y

/-- The register that biases Bnnn, for either value of `jump_offset_reg` (R51). -/
def jumpRegister (r : Config.JumpOffsetReg) (nnn : Addr12) : Reg :=
  match r with
  | .v0 => 0
  | .vx => (nnn.extractLsb' 8 4).toFin

/-- The target of Bnnn: `(zext_16(nnn) + V[r]) mod 2^16` (R51). -/
def jumpTarget (r : Config.JumpOffsetReg) (nnn : Addr12) (s : State) : Word :=
  zext16 nnn + (reg s (jumpRegister r nnn)).setWidth 16

/-- `V[0]`..`V[x]`, the bytes Fx55 stores (R84). -/
def regsThrough (s : State) (x : Reg) : List Byte := s.V.toList.take (x.val + 1)

/-- The registers after the bytes of a list are loaded from V0 upward (R85). -/
def loadRegs (bytes : List Byte) (v : Vector Byte 16) : Vector Byte 16 :=
  Vector.ofFn fun j : Fin 16 => bytes.getD j.val v[j.val]

/-- `FONT_BASE + 5 * (V[x] AND 0xF)` (R82). -/
def glyphAddress (v : Byte) : Word :=
  BitVec.ofNat 16 (Config.fontBase + Config.fontGlyphBytes * (lowNibble v).val)

/-- The decimal digits of a byte: hundreds, tens, ones (R83). -/
def bcdDigits (v : Byte) : List Byte := [v / 100#8, (v / 10#8) % 10#8, v % 10#8]

/-- `(I + x + 1) mod 2^16`, the index register after Fx55 and Fx65 (R84, R85). -/
def indexAfterBlock (s : State) (x : Reg) : Word := s.I + BitVec.ofNat 16 (x.val + 1)

end Sys2Proof.Machine
end

