-- ==== Sys2Proof/Machine/Flags.lean ====
section
/-! DEFINITION. Every value that an instruction writes to VF as a side effect (10_state.md R10), and the one operation
that writes a result and its flag, the flag last (decision D8; assumption 10). -/

namespace Sys2Proof.Machine

/-- `bool(c)` as a byte (R7). -/
def boolByte (c : Bool) : Byte := if c then 1#8 else 0#8

/-- The carry of 8xy4: the exact sum exceeds 255 (R57, R64). -/
def carryFlag (a b : Byte) : Byte := boolByte (decide (255 < a.toNat + b.toNat))

/-- The non-borrow of 8xy5 and 8xy7: `minuend >= subtrahend` (R57, R65, R67). -/
def nonBorrowFlag (minuend subtrahend : Byte) : Byte := boolByte (decide (subtrahend.toNat ≤ minuend.toNat))

/-- The bit that a right shift moves out: `src AND 1` (R66). -/
def lowBitFlag (src : Byte) : Byte := src &&& 1#8

/-- The bit that a left shift moves out: `(src >> 7) AND 1` (R68). -/
def highBitFlag (src : Byte) : Byte := (src >>> 7) &&& 1#8

/-- `V[x] <- r`, then `VF <- f`: where `x = F` the flag is what VF holds afterwards (R10). -/
def setResultFlag (s : State) (x : Reg) (r f : Byte) : State := (s.setV x r).setV VF f

end Sys2Proof.Machine
end

