-- ==== Sys2Proof/Machine/Alu.lean ====
section
/-! DEFINITION. Register arithmetic and logic (41_alu.md). -/

namespace Sys2Proof.Machine

/-- The end of an instruction whose only effect is a register result. -/
def writeReg (x : Reg) (r : Byte) (s : State) : Host.Outcome State Fault Refusal := .next (s.setV x r).advancePc

/-- The end of an instruction that writes a register result and then VF. -/
def writeRegFlag (x : Reg) (r f : Byte) (s : State) : Host.Outcome State Fault Refusal :=
  .next (setResultFlag s x r f).advancePc

/-- LD Vx, kk (R58). -/
def execLdImm (x : Reg) (kk : Byte) (s : State) : Host.Outcome State Fault Refusal := writeReg x kk s

/-- ADD Vx, kk (R59). -/
def execAddImm (x : Reg) (kk : Byte) (s : State) : Host.Outcome State Fault Refusal := writeReg x (reg s x + kk) s

/-- LD Vx, Vy (R60). -/
def execLdReg (x y : Reg) (s : State) : Host.Outcome State Fault Refusal := writeReg x (reg s y) s

/-- OR Vx, Vy (R61). -/
def execOr (x y : Reg) (s : State) : Host.Outcome State Fault Refusal :=
  writeRegFlag x (reg s x ||| reg s y) 0#8 s

/-- AND Vx, Vy (R62). -/
def execAnd (x y : Reg) (s : State) : Host.Outcome State Fault Refusal :=
  writeRegFlag x (reg s x &&& reg s y) 0#8 s

/-- XOR Vx, Vy (R63). -/
def execXor (x y : Reg) (s : State) : Host.Outcome State Fault Refusal :=
  writeRegFlag x (reg s x ^^^ reg s y) 0#8 s

/-- ADD Vx, Vy (R64). -/
def execAddReg (x y : Reg) (s : State) : Host.Outcome State Fault Refusal :=
  writeRegFlag x (reg s x + reg s y) (carryFlag (reg s x) (reg s y)) s

/-- SUB Vx, Vy (R65). -/
def execSub (x y : Reg) (s : State) : Host.Outcome State Fault Refusal :=
  writeRegFlag x (reg s x - reg s y) (nonBorrowFlag (reg s x) (reg s y)) s

/-- A right shift by one of an operand into Vx (R66). -/
def shiftRight (src : Byte) (x : Reg) (s : State) : Host.Outcome State Fault Refusal :=
  writeRegFlag x (src >>> 1) (lowBitFlag src) s

/-- SHR Vx (R66). -/
def execShr (x y : Reg) (s : State) : Host.Outcome State Fault Refusal :=
  shiftRight (shiftOperand shiftSource x y s) x s

/-- SUBN Vx, Vy (R67). -/
def execSubn (x y : Reg) (s : State) : Host.Outcome State Fault Refusal :=
  writeRegFlag x (reg s y - reg s x) (nonBorrowFlag (reg s y) (reg s x)) s

/-- A left shift by one of an operand into Vx (R68). -/
def shiftLeft (src : Byte) (x : Reg) (s : State) : Host.Outcome State Fault Refusal :=
  writeRegFlag x (src <<< 1) (highBitFlag src) s

/-- SHL Vx (R68). -/
def execShl (x y : Reg) (s : State) : Host.Outcome State Fault Refusal :=
  shiftLeft (shiftOperand shiftSource x y s) x s

end Sys2Proof.Machine
end

