-- ==== Sys2Proof/Machine/Control.lean ====
section
/-! DEFINITION. Control transfer: return, jumps, call and the register skips (40_control_flow.md). -/

namespace Sys2Proof.Machine

/-- RET (R49). -/
def execRet (s : State) : Host.Outcome State Fault Refusal :=
  finish s <|
    match pop s with
    | .error e => .error e
    | .ok (target, s') => .ok (s'.setPc target)

/-- JP nnn (R50). -/
def execJp (nnn : Addr12) (s : State) : Host.Outcome State Fault Refusal := .next (s.setPc (zext16 nnn))

/-- JP V0, nnn (R51). -/
def execJpV0 (nnn : Addr12) (s : State) : Host.Outcome State Fault Refusal :=
  .next (s.setPc (jumpTarget jumpOffsetReg nnn s))

/-- CALL nnn (R52): the pushed address is `pc0 + 2`. -/
def execCall (nnn : Addr12) (s : State) : Host.Outcome State Fault Refusal :=
  finish s <|
    match push (s.pc + 2#16) s with
    | .error e => .error e
    | .ok s' => .ok (s'.setPc (zext16 nnn))

/-- SE Vx, kk (R53). -/
def execSeImm (x : Reg) (kk : Byte) (s : State) : Host.Outcome State Fault Refusal :=
  .next (s.skipIf (decide (reg s x = kk)))

/-- SNE Vx, kk (R54). -/
def execSneImm (x : Reg) (kk : Byte) (s : State) : Host.Outcome State Fault Refusal :=
  .next (s.skipIf (decide (reg s x ≠ kk)))

/-- SE Vx, Vy (R55). -/
def execSeReg (x y : Reg) (s : State) : Host.Outcome State Fault Refusal :=
  .next (s.skipIf (decide (reg s x = reg s y)))

/-- SNE Vx, Vy (R56). -/
def execSneReg (x y : Reg) (s : State) : Host.Outcome State Fault Refusal :=
  .next (s.skipIf (decide (reg s x ≠ reg s y)))

end Sys2Proof.Machine
end

