-- ==== Sys2Proof/Machine/Display.lean ====
section
/-! DEFINITION. The display buffer: clear, and sprite draw with collision detection (43_display.md). -/

namespace Sys2Proof.Machine

/-- `disp[y][x]` (R21). -/
def cell (d : Display) (x : Fin 64) (y : Fin 32) : Bool := d[y.val][x.val]

/-- A display buffer with every cell 0. -/
def blankDisplay : Display := Vector.replicate 32 (Vector.replicate 64 false)

/-- Column `a` modulo the width (R72). -/
def wrapX (a : Nat) : Fin 64 := Fin.ofNat 64 a

/-- Row `a` modulo the height (R72). -/
def wrapY (a : Nat) : Fin 32 := Fin.ofNat 32 a

/-- A display buffer and whether a set pixel was flipped off so far. -/
structure DrawResult where
  disp : Display
  hit : Bool
  deriving DecidableEq, Repr

/-- Toggling one cell: `hit` is set where the cell was 1 (R74). -/
def toggleCell (x : Fin 64) (y : Fin 32) (d : DrawResult) : DrawResult where
  disp := d.disp.set y.val (d.disp[y.val].set x.val (!cell d.disp x y) x.isLt) y.isLt
  hit := d.hit || cell d.disp x y

/-- The sprite bit of column offset `c`: bit `7 - c` of the row's byte (R72). -/
def spriteBit (b : Byte) (c : Nat) : Bool := b.getLsbD (7 - c)

/-- One sprite row at column `x0` of display row `y` (R74, the loop over c). -/
def drawRow (x0 : Nat) (y : Fin 32) (b : Byte) (d : DrawResult) : DrawResult :=
  (List.range 8).foldl (fun d c => if spriteBit b c then toggleCell (wrapX (x0 + c)) y d else d) d

/-- Sprite rows from display row `y0` downward (R74, the loop over r). -/
def drawRows (x0 : Nat) : Nat → List Byte → DrawResult → DrawResult
  | _, [], d => d
  | y0, b :: rest, d => drawRows x0 (y0 + 1) rest (drawRow x0 (wrapY y0) b d)

/-- CLS (R73). -/
def execCls (s : State) : Host.Outcome State Fault Refusal := .next (s.setDisp blankDisplay).advancePc

/-- DRW Vx, Vy, n (R74): the rows are read first, and VF is written last. -/
def execDrw (x y : Reg) (n : Nat) (s : State) : Host.Outcome State Fault Refusal :=
  finish s <|
    match readBytes s.mem s.I.toNat n with
    | .error e => .error e
    | .ok rows =>
      let d := drawRows (reg s x).toNat (reg s y).toNat rows ⟨s.disp, false⟩
      .ok ((s.setDisp d.disp).setV VF (boolByte d.hit)).advancePc

end Sys2Proof.Machine
end

