-- ==== Sys2Proof/Machine/IndexRandom.lean ====
section
/-! DEFINITION. The index register and the random byte (42_index_random.md). -/

namespace Sys2Proof.Machine

/-- The end of an instruction whose only effect is a new index register. -/
def writeIndex (a : Word) (s : State) : Host.Outcome State Fault Refusal := .next (s.setI a).advancePc

/-- LD I, nnn (R69). -/
def execLdI (nnn : Addr12) (s : State) : Host.Outcome State Fault Refusal := writeIndex (zext16 nnn) s

/-- ADD I, Vx (R70): modulo 2^16, and no flag. -/
def execAddI (x : Reg) (s : State) : Host.Outcome State Fault Refusal :=
  writeIndex (s.I + (reg s x).setWidth 16) s

/-- RND Vx, kk with the drawn byte `r` given (R71). -/
def randomMasked (r : Byte) (x : Reg) (kk : Byte) (s : State) : Host.Outcome State Fault Refusal :=
  writeReg x (r &&& kk) s.countDraw

/-- RND Vx, kk (R71): the byte is the free value of this draw (assumption 3). -/
def execRnd (x : Reg) (kk : Byte) (s : State) : Host.Outcome State Fault Refusal :=
  randomMasked (Config.randomByte s.draws) x kk s

end Sys2Proof.Machine
end

