-- ==== Sys2Proof/Machine/KeypadTimers.lean ====
section
/-! DEFINITION. Keypad skips, timer moves and the wait for a key (44_keypad_timers.md). -/

namespace Sys2Proof.Machine

/-- SKP Vx (R75). -/
def execSkp (x : Reg) (s : State) : Host.Outcome State Fault Refusal := .next (s.skipIf (keyNamedBy s x))

/-- SKNP Vx (R76). -/
def execSknp (x : Reg) (s : State) : Host.Outcome State Fault Refusal := .next (s.skipIf (!keyNamedBy s x))

/-- LD Vx, DT (R77). -/
def execLdVxDt (x : Reg) (s : State) : Host.Outcome State Fault Refusal := writeReg x s.DT s

/-- LD DT, Vx (R78). -/
def execLdDtVx (x : Reg) (s : State) : Host.Outcome State Fault Refusal := .next (s.setDT (reg s x)).advancePc

/-- LD ST, Vx (R79). -/
def execLdStVx (x : Reg) (s : State) : Host.Outcome State Fault Refusal := .next (s.setST (reg s x)).advancePc

/-- LD Vx, K (R80, R81, decisions D17 and D18; assumption 15): it leaves `pc` unchanged until it finds the candidate key
released. -/
def execLdVxK (x : Reg) (s : State) : Host.Outcome State Fault Refusal :=
  match s.wait with
  | .idle => .next (s.setWait .awaitingPress)
  | .awaitingPress => .next s
  | .awaitingRelease k =>
    if keyDown s k then .next s
    else writeReg x (BitVec.ofNat 8 k.val) (s.setWait .idle)

end Sys2Proof.Machine
end

