-- ==== Sys2Proof/Machine/MemoryOps.lean ====
section
/-! DEFINITION. Glyph address, BCD store, register dump and register load (45_memory_ops.md). -/

namespace Sys2Proof.Machine

/-- LD F, Vx (R82). -/
def execLdF (x : Reg) (s : State) : Host.Outcome State Fault Refusal := writeIndex (glyphAddress (reg s x)) s

/-- LD B, Vx (R83). -/
def execLdB (x : Reg) (s : State) : Host.Outcome State Fault Refusal :=
  finish s <|
    match writeBytes s.mem s.I.toNat (bcdDigits (reg s x)) with
    | .error e => .error e
    | .ok m => .ok (s.setMem m).advancePc

/-- LD [I], Vx (R84): the dump, after which `I` has advanced by `x + 1`. -/
def execLdMemStore (x : Reg) (s : State) : Host.Outcome State Fault Refusal :=
  finish s <|
    match writeBytes s.mem s.I.toNat (regsThrough s x) with
    | .error e => .error e
    | .ok m => .ok ((s.setMem m).setI (indexAfterBlock s x)).advancePc

/-- LD Vx, [I] (R85): the load, after which `I` has advanced by `x + 1`. -/
def execLdMemLoad (x : Reg) (s : State) : Host.Outcome State Fault Refusal :=
  finish s <|
    match readBytes s.mem s.I.toNat (x.val + 1) with
    | .error e => .error e
    | .ok bytes => .ok ((s.setRegs (loadRegs bytes s.V)).setI (indexAfterBlock s x)).advancePc

end Sys2Proof.Machine
end

