-- ==== Sys2Proof/Machine/HostOps.lean ====
section
/-! DEFINITION. The host operations (60_exceptions.md R94): Advance, Tick, KeyEvent, Render, SetColours, and Construct
(70_reset_and_hazards.md R105). -/

namespace Sys2Proof.Machine

/-- An operation that has a step only while the status is Running (R89(4), R91(1)). -/
def whileRunning (s : State) (r : Host.Outcome State Fault Refusal) : Host.Outcome State Fault Refusal :=
  match s.status with
  | .running => r
  | .halted c => .fault (.halted c)

/-- Advance on a running machine (R48): fetch, decode, and execute or report. -/
def advanceRunning (s : State) : Host.Outcome State Fault Refusal :=
  match fetch s.mem s.pc with
  | .error (.raise c) => takeFatal c s
  | .error (.stuck f) => .fault f
  | .ok w =>
    match decode w with
    | none => reportUnknown w s
    | some i => exec i s

/-- Advance (R48). -/
def advance (s : State) : Host.Outcome State Fault Refusal := whileRunning s (advanceRunning s)

/-- The counter after one Tick: it floors at 0 (R95). -/
def decrement (v : Byte) : Byte := if v = 0#8 then v else v - 1#8

/-- Tick (R95). -/
def tick (s : State) : Host.Outcome State Fault Refusal :=
  whileRunning s (.next ((s.setDT (decrement s.DT)).setST (decrement s.ST)))

/-- The input-wait sub-state after a key event: a press fills an empty candidate while waiting (R81, R96). -/
def waitAfterKey (k : Key) (pressed : Bool) : WaitState → WaitState
  | .idle => .idle
  | .awaitingPress => if pressed then .awaitingRelease k else .awaitingPress
  | .awaitingRelease j => .awaitingRelease j

/-- KeyEvent(k, pressed) (R96). -/
def keyEvent (k : Key) (pressed : Bool) (s : State) : Host.Outcome State Fault Refusal :=
  whileRunning s (.next ((s.setKey k pressed).setWait (waitAfterKey k pressed s.wait)))

/-- SetColours(fg, bg), which takes effect once (R98). -/
def setColours (c : Colours) (s : State) : Host.Outcome State Fault Refusal :=
  whileRunning s <|
    match s.colours with
    | none => .next (s.setColours c)
    | some _ => .refused .coloursAlreadySet

/-- `fg_colour` (R24): the open default while never set. -/
def fgColour (s : State) : Config.Rgb :=
  match s.colours with
  | some c => c.fg
  | none => Config.defaultFg

/-- `bg_colour` (R24): the open default while never set. -/
def bgColour (s : State) : Config.Rgb :=
  match s.colours with
  | some c => c.bg
  | none => Config.defaultBg

/-- What Render produces (R97). -/
structure Frame where
  bytes : List Byte
  width : Nat
  height : Nat
  deriving DecidableEq, Repr

/-- A colour as R, G, B bytes (R97). -/
def rgbBytes (c : Config.Rgb) : List Byte := [c.r, c.g, c.b]

/-- The colour of a cell (R97). -/
def cellColour (s : State) (on : Bool) : Config.Rgb := if on then fgColour s else bgColour s

/-- The frame Render returns: the cells in row-major order as colour triples, with the width and the height (R97). -/
def renderFrame (s : State) : Frame where
  bytes := s.disp.toList.flatMap fun row => row.toList.flatMap fun on => rgbBytes (cellColour s on)
  width := Config.dispW
  height := Config.dispH

/-- Render as a step: a pure read, available after a fatal failure too (R89(4), R97). -/
def render (s : State) : Host.Outcome State Fault Refusal := .next s

/-- The step of one host operation (R94). -/
def applyOp (op : HostOp) (s : State) : Host.Outcome State Fault Refusal :=
  match op with
  | .advance => advance s
  | .tick => tick s
  | .keyEvent k p => keyEvent k p s
  | .render => render s
  | .setColours c => setColours c s

/-- The host operation that comes next: the head of `schedule`, or what `tail` gives (R94; assumption 5). -/
def State.nextOp (s : State) : HostOp :=
  match s.schedule with
  | op :: _ => op
  | [] =>
    match s.tail with
    | .openFrom n => Config.hostOrder n
    | .advances => .advance

/-- The state once that operation is taken off the host's order. -/
def State.takeOp (s : State) : State :=
  match s.schedule with
  | _ :: rest => s.setSchedule rest
  | [] =>
    match s.tail with
    | .openFrom n => s.setTail (.openFrom (n + 1))
    | .advances => s

/-- What Advance returns to its caller (R88, R99). -/
inductive AdvanceResult where
  | ok
  | fatal (cause : Cause)
  | noStep
  deriving DecidableEq, Repr

/-- The result of an Advance in `s`: `Fatal` exactly where it leaves the machine halted (R88, R89(3)). -/
def advanceResult (s : State) : AdvanceResult :=
  match advance s with
  | .next t =>
    match t.status with
    | .running => .ok
    | .halted c => .fatal c
  | .fault _ => .noStep
  | .refused _ => .noStep

/-- LoadError, which records the ROM length (R87, R105). -/
structure LoadError where
  romLength : Nat
  deriving DecidableEq, Repr

/-- The code of LoadError (R87). -/
def LoadError.code (_ : LoadError) : Nat := 1

/-- The memory after the bytes of a list are stored from `a` upward, with no range check. -/
def storeImage (m : Memory) : Nat → List Byte → Memory
  | _, [] => m
  | a, b :: bs => storeImage (m.write a b) (a + 1) bs

/-- Construct(rom, colours?) (R105, R106). -/
def construct (rom : List Byte) (colours : Option Colours) : Except LoadError State :=
  if Config.maxRom < rom.length then .error ⟨rom.length⟩
  else .ok { State.reset with mem := storeImage [] Config.progOrigin rom, colours := colours }

end Sys2Proof.Machine
end

