-- ==== Sys2Proof/Machine/Step.lean ====
section
/-! DEFINITION. One step of the machine: the next host operation in the total order of 60_exceptions.md R94. -/

namespace Sys2Proof.Machine

/-- One atomic state transition (R36, R94): the next operation of the host's order, in the state without it. -/
def step (s : State) : Host.Outcome State Fault Refusal := applyOp s.nextOp s.takeOp

/-- Where an instruction placed for the next step goes: `pc`, or `PROG_ORIGIN` where no two bytes stand at `pc`. -/
def State.fetchSlot (s : State) : Word :=
  if s.pc.toNat + 1 < Config.memSize then s.pc else BitVec.ofNat 16 Config.progOrigin

/-- The state whose next step is an Advance that fetches and runs the table word `w`: its two bytes stand at `pc`,
big-endian (R30), the machine is running and its host issues Advance (assumption 13). -/
def State.withFetchWord (s : State) (nbits w : Nat) : State :=
  { s with
    pc := s.fetchSlot
    mem := storeImage s.mem s.fetchSlot.toNat (tableBytes nbits w)
    status := .running
    schedule := []
    tail := .advances }

end Sys2Proof.Machine
end

