-- ==== Sys2Proof/Safety.lean ====
section
/-! DEFINITION. The words that claims about the machine are stated in: the invariants, the named conditions of
60_exceptions.md R99, and the descriptions of what an instruction may change. Nothing of the machine itself is here. -/

namespace Sys2Proof.Machine

/-! ## Invariants -/

/-- Memory is in canonical form, and SP is legal: "SP <= 16 always holds" (R16). -/
def State.inv (s : State) : Prop := s.mem.wf = true ∧ s.SP.toNat ≤ 16

/-- The bounds of R14 on every reachable `pc`, with the bound on the return addresses in use that they rest on. -/
def State.pcBounded (s : State) : Prop :=
  s.pc.toNat ≤ 0x10FE ∧ ∀ j : Fin 16, j.val < s.SP.toNat → s.stack[j.val].toNat ≤ 0x1000

/-- "While `waiting = true`, the instruction at `pc` is always this Fx0A" (R80). -/
def State.waitsAtFx0A (s : State) : Prop :=
  s.waiting = true → ∃ w x, fetch s.mem s.pc = .ok w ∧ decode w = some (.ldVxK x)

/-! ## Conditions of a run (R99) -/

/-- The machine has not halted. -/
def State.isRunning (s : State) : Prop := s.status = .running

/-- Parked: running, and the word at `pc` is a jump to itself (R99). -/
def State.parked (s : State) : Prop :=
  s.isRunning ∧ ∃ w nnn, fetch s.mem s.pc = .ok w ∧ decode w = some (.jp nnn) ∧ zext16 nnn = s.pc

/-- A step that neither stops nor halts the machine. -/
def SafeStep (s : State) : Prop := ∃ t, step s = .next t ∧ t.isRunning

/-- The open order issues Advance infinitely often: one of the schedule assumptions that R103 has a claim state. The
model makes none; a claim that needs this one takes it as a premise. -/
def AdvanceInfinitelyOften : Prop := ∀ n, ∃ m, n ≤ m ∧ Config.hostOrder m = .advance

/-! ## What an instruction does -/

/-- From `s` to `t`, `V[x]` became `r`, `pc` moved on by 2, and nothing else changed. -/
def WritesOnly (s t : State) (x : Reg) (r : Byte) : Prop :=
  reg t x = r ∧ (∀ k, k ≠ x → reg t k = reg s k) ∧ t.pc = s.pc + 2#16 ∧ t = { s with V := t.V, pc := t.pc }

/-- From `s` to `t`, `V[x]` became `r` and then VF became `f` (so that `f` is what VF holds where `x = F`), `pc` moved on
by 2, and nothing else changed. -/
def WritesWithFlag (s t : State) (x : Reg) (r f : Byte) : Prop :=
  (x ≠ VF → reg t x = r) ∧ reg t VF = f ∧ (∀ k, k ≠ x → k ≠ VF → reg t k = reg s k) ∧
    t.pc = s.pc + 2#16 ∧ t = { s with V := t.V, pc := t.pc }

/-- `pc` after a skip whose condition is `c` (R12). -/
def skipTarget (s : State) (c : Prop) [Decidable c] : Word := if c then s.pc + 4#16 else s.pc + 2#16

/-- The cell in column `px` of row `py` is one that an `n`-row sprite at address `a`, drawn at `(x0, y0)`, toggles
(R72). -/
def spriteCovers (m : Memory) (a x0 y0 n : Nat) (px : Fin 64) (py : Fin 32) : Prop :=
  ∃ r c, r < n ∧ c < 8 ∧ (m.read (a + r)).getLsbD (7 - c) = true ∧
    px.val = (x0 + c) % 64 ∧ py.val = (y0 + r) % 32

/-- The successor of `pc` that the table of R12 gives an instruction that is not ended by a fatal cause. -/
def successorPc (i : Instr) (s : State) : Word :=
  match i with
  | .jp nnn => nnn.setWidth 16
  | .call nnn => nnn.setWidth 16
  | .jpV0 nnn => nnn.setWidth 16 + s.V[0].setWidth 16
  | .ret => s.stack.toList.getD (s.SP.toNat - 1) 0#16
  | .seImm x kk => skipTarget s (reg s x = kk)
  | .sneImm x kk => skipTarget s (reg s x ≠ kk)
  | .seReg x y => skipTarget s (reg s x = reg s y)
  | .sneReg x y => skipTarget s (reg s x ≠ reg s y)
  | .skp x => skipTarget s (s.key.toList.getD ((reg s x).toNat % 16) false = true)
  | .sknp x => skipTarget s (s.key.toList.getD ((reg s x).toNat % 16) false = false)
  | .ldVxK _ =>
    match s.candidate with
    | some k => if keyDown s k then s.pc else s.pc + 2#16
    | none => s.pc
  | _ => s.pc + 2#16

/-- Which general registers an instruction may write (R9, R10). -/
def mayWriteReg (i : Instr) (r : Reg) : Prop :=
  match i with
  | .ldImm x _ | .addImm x _ | .ldReg x _ | .rnd x _ | .ldVxDt x | .ldVxK x => r = x
  | .orReg x _ | .andReg x _ | .xorReg x _ | .addReg x _ | .sub x _ | .shr x _ | .subn x _ | .shl x _ => r = x ∨ r = VF
  | .drw _ _ _ => r = VF
  | .ldMemLoad x => r ≤ x
  | _ => False

/-- The instruction draws on or clears the display (R21). -/
def mutatesDisplay (i : Instr) : Prop := i = .cls ∨ ∃ x y n, i = .drw x y n

/-- The instruction stores to memory (R32). -/
def storesToMemory (i : Instr) : Prop := ∃ x, i = .ldB x ∨ i = .ldMemStore x

/-- The instruction uses the call stack (R16). -/
def usesStack (i : Instr) : Prop := i = .ret ∨ ∃ nnn, i = .call nnn

end Sys2Proof.Machine
end

