-- ==== Sys2Proof/Certificates/Slice0/Obligations.lean ====
section
/-! DEFINITION. The statements for the provers. Each docstring names the rule of spec/ it formalises, and where a clause
rests on a decision of the spec's own (a D number of 92_eei_decisions.md) or on a choice of the model (an assumption of
notes/assumptions/), it says so. -/

open Sys2Proof Sys2Proof.Machine

/-! ## Encoding -/

/-- R42, R44, with decision D4 for the encodings: no bit of an operand is lost, for all 34 instructions with every
operand, and the bytes after an instruction are left alone. -/
def Obligations.DecodeInvertsEncode : Prop :=
  ∀ i : Instr, i.wf = true →
    decode (encode i) = some i ∧ ∀ rest, decodeBytes (encodeBytes i ++ rest) = .ok (i, rest)

/-- R44, R46, with D4: each word has one meaning, which is a row of spec/opcode_table.json. -/
def Obligations.EncodeInvertsDecode : Prop :=
  ∀ (w : Word) (i : Instr), decode w = some i →
    i.wf = true ∧ encode i = w ∧ w &&& rowMask i = rowMatch i

/-- R45, with D5: the unknown words are exactly the listed ones. -/
def Obligations.UnknownWordsAreTheListedOnes : Prop :=
  ∀ w : Word, decode w = none ↔
    (fieldOp w = 0x0#4 ∧ w ≠ 0x00E0#16 ∧ w ≠ 0x00EE#16) ∨
    ((fieldOp w = 0x5#4 ∨ fieldOp w = 0x9#4) ∧ fieldN w ≠ 0x0#4) ∨
    (fieldOp w = 0x8#4 ∧ fieldN w ∈ [0x8#4, 0x9#4, 0xA#4, 0xB#4, 0xC#4, 0xD#4, 0xF#4]) ∨
    (fieldOp w = 0xE#4 ∧ fieldKK w ≠ 0x9E#8 ∧ fieldKK w ≠ 0xA1#8) ∨
    (fieldOp w = 0xF#4 ∧
      fieldKK w ∉ [0x07#8, 0x0A#8, 0x15#8, 0x18#8, 0x1E#8, 0x29#8, 0x33#8, 0x55#8, 0x65#8])

/-- R42, R44, with D4: the opcode map, row by row, from the fields of the word. -/
def Obligations.OpcodeMapRows : Prop :=
  ∀ w : Word,
    (w = 0x00E0#16 → decode w = some .cls) ∧
    (w = 0x00EE#16 → decode w = some .ret) ∧
    (fieldOp w = 0x1#4 → decode w = some (.jp (fieldNNN w))) ∧
    (fieldOp w = 0x2#4 → decode w = some (.call (fieldNNN w))) ∧
    (fieldOp w = 0x3#4 → decode w = some (.seImm (fieldX w) (fieldKK w))) ∧
    (fieldOp w = 0x4#4 → decode w = some (.sneImm (fieldX w) (fieldKK w))) ∧
    (fieldOp w = 0x5#4 → fieldN w = 0x0#4 → decode w = some (.seReg (fieldX w) (fieldY w))) ∧
    (fieldOp w = 0x6#4 → decode w = some (.ldImm (fieldX w) (fieldKK w))) ∧
    (fieldOp w = 0x7#4 → decode w = some (.addImm (fieldX w) (fieldKK w))) ∧
    (fieldOp w = 0x8#4 → fieldN w = 0x0#4 → decode w = some (.ldReg (fieldX w) (fieldY w))) ∧
    (fieldOp w = 0x8#4 → fieldN w = 0x1#4 → decode w = some (.orReg (fieldX w) (fieldY w))) ∧
    (fieldOp w = 0x8#4 → fieldN w = 0x2#4 → decode w = some (.andReg (fieldX w) (fieldY w))) ∧
    (fieldOp w = 0x8#4 → fieldN w = 0x3#4 → decode w = some (.xorReg (fieldX w) (fieldY w))) ∧
    (fieldOp w = 0x8#4 → fieldN w = 0x4#4 → decode w = some (.addReg (fieldX w) (fieldY w))) ∧
    (fieldOp w = 0x8#4 → fieldN w = 0x5#4 → decode w = some (.sub (fieldX w) (fieldY w))) ∧
    (fieldOp w = 0x8#4 → fieldN w = 0x6#4 → decode w = some (.shr (fieldX w) (fieldY w))) ∧
    (fieldOp w = 0x8#4 → fieldN w = 0x7#4 → decode w = some (.subn (fieldX w) (fieldY w))) ∧
    (fieldOp w = 0x8#4 → fieldN w = 0xE#4 → decode w = some (.shl (fieldX w) (fieldY w))) ∧
    (fieldOp w = 0x9#4 → fieldN w = 0x0#4 → decode w = some (.sneReg (fieldX w) (fieldY w))) ∧
    (fieldOp w = 0xA#4 → decode w = some (.ldI (fieldNNN w))) ∧
    (fieldOp w = 0xB#4 → decode w = some (.jpV0 (fieldNNN w))) ∧
    (fieldOp w = 0xC#4 → decode w = some (.rnd (fieldX w) (fieldKK w))) ∧
    (fieldOp w = 0xD#4 → decode w = some (.drw (fieldX w) (fieldY w) (fieldN w).toNat)) ∧
    (fieldOp w = 0xE#4 → fieldKK w = 0x9E#8 → decode w = some (.skp (fieldX w))) ∧
    (fieldOp w = 0xE#4 → fieldKK w = 0xA1#8 → decode w = some (.sknp (fieldX w))) ∧
    (fieldOp w = 0xF#4 → fieldKK w = 0x07#8 → decode w = some (.ldVxDt (fieldX w))) ∧
    (fieldOp w = 0xF#4 → fieldKK w = 0x0A#8 → decode w = some (.ldVxK (fieldX w))) ∧
    (fieldOp w = 0xF#4 → fieldKK w = 0x15#8 → decode w = some (.ldDtVx (fieldX w))) ∧
    (fieldOp w = 0xF#4 → fieldKK w = 0x18#8 → decode w = some (.ldStVx (fieldX w))) ∧
    (fieldOp w = 0xF#4 → fieldKK w = 0x1E#8 → decode w = some (.addI (fieldX w))) ∧
    (fieldOp w = 0xF#4 → fieldKK w = 0x29#8 → decode w = some (.ldF (fieldX w))) ∧
    (fieldOp w = 0xF#4 → fieldKK w = 0x33#8 → decode w = some (.ldB (fieldX w))) ∧
    (fieldOp w = 0xF#4 → fieldKK w = 0x55#8 → decode w = some (.ldMemStore (fieldX w))) ∧
    (fieldOp w = 0xF#4 → fieldKK w = 0x65#8 → decode w = some (.ldMemLoad (fieldX w)))

/-- Words that the spec's own examples write out (40_ to 45_, the Example lines), with D4. -/
def Obligations.ExampleWordsDecode : Prop :=
  decode 0x00E0#16 = some .cls ∧
  decode 0x1228#16 = some (.jp 0x228#12) ∧
  decode 0x3342#16 = some (.seImm 3 0x42#8) ∧
  decode 0x6A2F#16 = some (.ldImm 10 0x2F#8) ∧
  decode 0x8127#16 = some (.subn 1 2) ∧
  decode 0xA2F0#16 = some (.ldI 0x2F0#12) ∧
  decode 0xD015#16 = some (.drw 0 1 5) ∧
  decode 0xE2A1#16 = some (.sknp 2) ∧
  decode 0xF30A#16 = some (.ldVxK 3) ∧
  decode 0xF265#16 = some (.ldMemLoad 2)

/-! ## The instruction cycle -/

/-- R48: when the two bytes at `pc` decode to an instruction and the host's next operation is Advance, the step of a running
machine is that instruction's own execution, in the state whose host order alone has moved on (R11: `pc` still holds its
address). The host order in State (`nextOp`, `takeOp`) is the model's choice, assumption 5. -/
def Obligations.StepRunsTheDecodedInstruction : Prop :=
  ∀ (s : State) (i : Instr), s.nextOp = .advance → s.status = .running → s.pc.toNat + 1 < 4096 →
    decodeBytes [s.mem.read s.pc.toNat, s.mem.read (s.pc.toNat + 1)] = .ok (i, []) →
    step s = exec i s.takeOp ∧ s.takeOp = { s with schedule := s.takeOp.schedule, tail := s.takeOp.tail }

/-- R30: fetch is big-endian. With D1 for the 4096 bytes and D9 for the fault (assumptions 1 and 12), it raises
AddressFault at the first of its two bytes that is outside memory. -/
def Obligations.FetchIsBigEndian : Prop :=
  ∀ (m : Memory) (pc : Word),
    (4096 ≤ pc.toNat → fetch m pc = .error (.raise (.addressFault pc.toNat))) ∧
    (pc.toNat = 4095 → fetch m pc = .error (.raise (.addressFault 4096))) ∧
    (pc.toNat + 1 < 4096 → ∃ w, fetch m pc = .ok w ∧
      w.toNat = (m.read pc.toNat).toNat * 256 + (m.read (pc.toNat + 1)).toNat)

/-- R90, with D14 for what the report holds: an unknown word is reported, `pc` moves on by 2, and nothing else
changes. -/
def Obligations.UnknownWordIsReported : Prop :=
  ∀ (s : State) (w : Word), s.status = .running → fetch s.mem s.pc = .ok w → decode w = none →
    advance s = .next { s with diag := s.diag ++ [⟨s.pc, w⟩], pc := s.pc + 2#16 }

/-- R91(2), with D9 and D13: a fetch outside memory halts the machine and changes nothing else. -/
def Obligations.FetchFaultHalts : Prop :=
  ∀ s : State, s.status = .running → 4096 ≤ s.pc.toNat + 1 →
    advance s = .next { s with status := .halted (.addressFault (max s.pc.toNat 4096)) }

/-- R89(4), R94, R103, with D13 and D20: a step is the operation at the head of the schedule; after those, the next one of
the host's open order, of which nothing is known (`Config.hostOrder`, a free value), or an Advance where the host issues
nothing else. On a halted machine only Render has a step. The host order in State is the model's choice, assumption 5. -/
def Obligations.StepIsTheScheduledOperation : Prop :=
  (∀ (s : State) (op : HostOp) (rest : List HostOp), s.schedule = op :: rest →
    step s = applyOp op { s with schedule := rest }) ∧
  (∀ (s : State) (n : Nat), s.schedule = [] → s.tail = .openFrom n →
    step s = applyOp (Config.hostOrder n) { s with tail := .openFrom (n + 1) }) ∧
  (∀ s : State, s.schedule = [] → s.tail = .advances → step s = applyOp .advance s) ∧
  (∀ (s : State) (c : Cause), s.status = .halted c →
    applyOp .render s = .next s ∧ ∀ op, op ≠ .render → applyOp op s = .fault (.halted c))

/-- R88, R89(1) to (3), with D13: when an Advance ends with the machine halted, for whatever instruction, the status is
the only thing it changed, an address it records is outside memory, and its result is `Fatal`. -/
def Obligations.FatalAdvanceChangesOnlyTheStatus : Prop :=
  ∀ (s t : State) (c : Cause), s.status = .running → advance s = .next t → t.status = .halted c →
    t = { s with status := .halted c } ∧ (∀ a, c = .addressFault a → 4096 ≤ a) ∧ advanceResult s = .fatal c

/-- R46, R48, R93: in every running state that meets the invariant, Advance has a next state, whatever the word at `pc`;
no instruction is refused and none is stuck. `inv` is SP at most 16 (R16, with D22) and the model's own canonical form of
memory (assumption 11). -/
def Obligations.RunningAdvanceHasANextState : Prop :=
  ∀ s : State, s.inv → s.status = .running → ∃ t, advance s = .next t

/-- R99, with D24: a parked machine's Advance leaves all state unchanged. -/
def Obligations.ParkedAdvanceChangesNothing : Prop :=
  ∀ s : State, s.parked → advance s = .next s

/-! ## Control transfer

Here and below, a decode clause gives the encoding that the instruction's own rule names; the encodings of all rules are
decision D4. -/

/-- R73. -/
def Obligations.ClearScreenClearsEveryCell : Prop :=
  decode 0x00E0#16 = some .cls ∧
  ∀ s : State, ∃ t, exec .cls s = .next t ∧ (∀ x y, cell t.disp x y = false) ∧ t.pc = s.pc + 2#16 ∧
    t = { s with disp := t.disp, pc := t.pc }

/-- R49, with D13 for the fatal state (assumption 12): RET with an empty stack halts the machine; with `j + 1` entries in use
it pops entry `j`, which stays in storage. -/
def Obligations.ReturnPopsTheStack : Prop :=
  decode 0x00EE#16 = some .ret ∧
  (∀ s : State, s.SP = 0#8 → exec .ret s = .next { s with status := .halted .stackUnderflow }) ∧
  (∀ (s : State) (j : Fin 16), s.SP.toNat = j.val + 1 → ∃ t, exec .ret s = .next t ∧
    t.pc = s.stack[j.val] ∧ t.SP.toNat = j.val ∧ t = { s with pc := t.pc, SP := t.SP })

/-- R50. -/
def Obligations.JumpSetsPc : Prop :=
  ∀ (nnn : Addr12) (s : State), decode (0x1#4 ++ nnn) = some (.jp nnn) ∧
    ∃ t, exec (.jp nnn) s = .next t ∧ t.pc.toNat = nnn.toNat ∧ t = { s with pc := t.pc }

/-- R51. That V0 is the biasing register is decision D7 (assumption 9); the last clause is the other variant's target. -/
def Obligations.JumpWithOffsetAddsV0 : Prop :=
  ∀ (nnn : Addr12) (s : State),
    (∃ t, exec (.jpV0 nnn) s = .next t ∧ t.pc.toNat = nnn.toNat + s.V[0].toNat ∧ t = { s with pc := t.pc }) ∧
    ∀ x : Reg, x.val = nnn.toNat / 256 → (jumpTarget .vx nnn s).toNat = nnn.toNat + (reg s x).toNat

/-- R52, with D13 for the fatal state (assumption 12): CALL with 16 entries in use halts the machine; with fewer it pushes
`pc0 + 2` and jumps. -/
def Obligations.CallPushesTheNextAddress : Prop :=
  ∀ (nnn : Addr12) (s : State), decode (0x2#4 ++ nnn) = some (.call nnn) ∧
    (s.SP.toNat = 16 → exec (.call nnn) s = .next { s with status := .halted .stackOverflow }) ∧
    (∀ j : Fin 16, s.SP.toNat = j.val → ∃ t, exec (.call nnn) s = .next t ∧
      t.pc.toNat = nnn.toNat ∧ t.SP.toNat = j.val + 1 ∧ t.stack[j.val] = s.pc + 2#16 ∧
      (∀ k : Fin 16, k ≠ j → t.stack[k.val] = s.stack[k.val]) ∧
      t = { s with pc := t.pc, SP := t.SP, stack := t.stack })

/-- R53, R54: the skips that compare a register with an immediate. -/
def Obligations.ImmediateSkipsMovePcByFourOrTwo : Prop :=
  ∀ (x : Reg) (kk : Byte) (s : State),
    decode (0x3#4 ++ regField x ++ kk) = some (.seImm x kk) ∧
    decode (0x4#4 ++ regField x ++ kk) = some (.sneImm x kk) ∧
    (∃ t, exec (.seImm x kk) s = .next t ∧ (reg s x = kk → t.pc = s.pc + 4#16) ∧
      (reg s x ≠ kk → t.pc = s.pc + 2#16) ∧ t = { s with pc := t.pc }) ∧
    (∃ t, exec (.sneImm x kk) s = .next t ∧ (reg s x ≠ kk → t.pc = s.pc + 4#16) ∧
      (reg s x = kk → t.pc = s.pc + 2#16) ∧ t = { s with pc := t.pc })

/-- R55, R56: the skips that compare two registers. That the words `5xyn` and `9xyn` with `n != 0` are unknown is decision
D5 (assumption 14). -/
def Obligations.RegisterSkipsMovePcByFourOrTwo : Prop :=
  ∀ (x y : Reg) (n : BitVec 4) (s : State),
    decode (0x5#4 ++ regField x ++ regField y ++ n) = (if n = 0#4 then some (.seReg x y) else none) ∧
    decode (0x9#4 ++ regField x ++ regField y ++ n) = (if n = 0#4 then some (.sneReg x y) else none) ∧
    (∃ t, exec (.seReg x y) s = .next t ∧ (reg s x = reg s y → t.pc = s.pc + 4#16) ∧
      (reg s x ≠ reg s y → t.pc = s.pc + 2#16) ∧ t = { s with pc := t.pc }) ∧
    (∃ t, exec (.sneReg x y) s = .next t ∧ (reg s x ≠ reg s y → t.pc = s.pc + 4#16) ∧
      (reg s x = reg s y → t.pc = s.pc + 2#16) ∧ t = { s with pc := t.pc })

/-! ## Register arithmetic and logic -/

/-- R58, R59, R60: load immediate, add immediate (modulo 256, no flag) and move, for every destination, VF among them. -/
def Obligations.LoadAddAndMoveWriteOnlyTheirRegister : Prop :=
  ∀ (x y : Reg) (kk : Byte) (s : State),
    decode (0x6#4 ++ regField x ++ kk) = some (.ldImm x kk) ∧
    decode (0x7#4 ++ regField x ++ kk) = some (.addImm x kk) ∧
    decode (0x8#4 ++ regField x ++ regField y ++ 0x0#4) = some (.ldReg x y) ∧
    (∃ t, exec (.ldImm x kk) s = .next t ∧ WritesOnly s t x kk) ∧
    (∃ t r, exec (.addImm x kk) s = .next t ∧ r.toNat = ((reg s x).toNat + kk.toNat) % 256 ∧ WritesOnly s t x r) ∧
    (∃ t, exec (.ldReg x y) s = .next t ∧ WritesOnly s t x (reg s y))

/-- R61, R62, R63: each of the three leaves VF at 0, for every pair of registers, `x = F` among them. -/
def Obligations.LogicOperationsClearVF : Prop :=
  ∀ (x y : Reg) (s : State),
    decode (0x8#4 ++ regField x ++ regField y ++ 0x1#4) = some (.orReg x y) ∧
    decode (0x8#4 ++ regField x ++ regField y ++ 0x2#4) = some (.andReg x y) ∧
    decode (0x8#4 ++ regField x ++ regField y ++ 0x3#4) = some (.xorReg x y) ∧
    (∃ t, exec (.orReg x y) s = .next t ∧ WritesWithFlag s t x (reg s x ||| reg s y) 0#8) ∧
    (∃ t, exec (.andReg x y) s = .next t ∧ WritesWithFlag s t x (reg s x &&& reg s y) 0#8) ∧
    (∃ t, exec (.xorReg x y) s = .next t ∧ WritesWithFlag s t x (reg s x ^^^ reg s y) 0#8)

/-- R57, R64. That the carry is what VF holds where `x = F` is decision D8 (assumption 10). -/
def Obligations.AddSetsTheCarry : Prop :=
  ∀ (x y : Reg) (s : State), ∃ t r, exec (.addReg x y) s = .next t ∧
    r.toNat = ((reg s x).toNat + (reg s y).toNat) % 256 ∧
    WritesWithFlag s t x r (if (reg s x).toNat + (reg s y).toNat > 255 then 1#8 else 0#8)

/-- R57, R65, R67: both operand orders. Which opcode is which order is decision D4, and the flag where `x = F` is
decision D8 (assumption 10). -/
def Obligations.SubtractionsSetTheNonBorrow : Prop :=
  ∀ (x y : Reg) (s : State),
    (∃ t r, exec (.sub x y) s = .next t ∧
      r.toNat = (256 + (reg s x).toNat - (reg s y).toNat) % 256 ∧
      WritesWithFlag s t x r (if (reg s x).toNat ≥ (reg s y).toNat then 1#8 else 0#8)) ∧
    (∃ t r, exec (.subn x y) s = .next t ∧
      r.toNat = (256 + (reg s y).toNat - (reg s x).toNat) % 256 ∧
      WritesWithFlag s t x r (if (reg s y).toNat ≥ (reg s x).toNat then 1#8 else 0#8))

/-- R66, R68. That Vx is the register shifted is decision D6 (assumption 8), and the flag where `x = F` is decision D8
(assumption 10). -/
def Obligations.ShiftsMoveOneBitIntoVF : Prop :=
  ∀ (x y : Reg) (s : State),
    (∃ t r f, exec (.shr x y) s = .next t ∧ r.toNat = (reg s x).toNat / 2 ∧ f.toNat = (reg s x).toNat % 2 ∧
      WritesWithFlag s t x r f) ∧
    (∃ t r f, exec (.shl x y) s = .next t ∧ r.toNat = (reg s x).toNat * 2 % 256 ∧ f.toNat = (reg s x).toNat / 128 ∧
      WritesWithFlag s t x r f)

/-! ## Index register and random byte -/

/-- R69. -/
def Obligations.LoadIndexSetsI : Prop :=
  ∀ (nnn : Addr12) (s : State), decode (0xA#4 ++ nnn) = some (.ldI nnn) ∧
    ∃ t, exec (.ldI nnn) s = .next t ∧ t.I.toNat = nnn.toNat ∧ t.pc = s.pc + 2#16 ∧
      t = { s with I := t.I, pc := t.pc }

/-- R70. That the sum is modulo 2^16 is decision D12. No flag is written: V is unchanged. -/
def Obligations.AddIndexWrapsWithNoFlag : Prop :=
  ∀ (x : Reg) (s : State), ∃ t, exec (.addI x) s = .next t ∧
    t.I.toNat = (s.I.toNat + (reg s x).toNat) % 65536 ∧ t.pc = s.pc + 2#16 ∧ t = { s with I := t.I, pc := t.pc }

/-- R71, with D19. The byte drawn is a free value (assumption 3), so the second clause says the same of every byte it
could be, and the last that no bit outside the mask is ever set. -/
def Obligations.RandomByteIsMasked : Prop :=
  ∀ (x : Reg) (kk : Byte) (s : State),
    (∃ t, exec (.rnd x kk) s = .next t ∧ reg t x = Config.randomByte s.draws &&& kk ∧
      (∀ k, k ≠ x → reg t k = reg s k) ∧ t.pc = s.pc + 2#16 ∧ t.draws = s.draws + 1 ∧
      t = { s with V := t.V, pc := t.pc, draws := t.draws }) ∧
    (∀ r : Byte, ∃ t, randomMasked r x kk s = .next t ∧ reg t x = r &&& kk ∧
      ∀ b, kk.getLsbD b = false → (reg t x).getLsbD b = false)

/-! ## Display -/

/-- R72, R74, with D9 for the address range and D16 for `n = 0`: a draw toggles exactly the cells the sprite covers, VF
says whether any cell went from 1 to 0, and nothing else changes. -/
def Obligations.DrawTogglesExactlyTheSpriteCells : Prop :=
  ∀ (x y : Reg) (n : Nat) (s : State), (Instr.drw x y n).wf = true → (n = 0 ∨ s.I.toNat + n ≤ 4096) →
    ∃ t, exec (.drw x y n) s = .next t ∧
      (∀ px py, cell t.disp px py ≠ cell s.disp px py ↔
        spriteCovers s.mem s.I.toNat (reg s x).toNat (reg s y).toNat n px py) ∧
      ((∃ px py, cell s.disp px py = true ∧ cell t.disp px py = false) → reg t VF = 1#8) ∧
      ((¬ ∃ px py, cell s.disp px py = true ∧ cell t.disp px py = false) → reg t VF = 0#8) ∧
      (∀ k, k ≠ VF → reg t k = reg s k) ∧ t.pc = s.pc + 2#16 ∧
      t = { s with V := t.V, disp := t.disp, pc := t.pc }

/-- W5 of 95_test_vectors.md: the same draw twice restores the display buffer. The coordinates are not in VF, which the
first draw writes, or the second draw would be at another place. -/
def Obligations.DrawingTwiceRestoresTheDisplay : Prop :=
  ∀ (x y : Reg) (n : Nat) (s : State), (Instr.drw x y n).wf = true → x ≠ VF → y ≠ VF →
    (n = 0 ∨ s.I.toNat + n ≤ 4096) →
    ∃ t u, exec (.drw x y n) s = .next t ∧ exec (.drw x y n) t = .next u ∧ u.disp = s.disp

/-! ## Faults of data accesses -/

/-- R74, R83, R84, R85 and R89, with D9 and D13: an access that leaves memory halts the machine at the lowest faulting
address, and nothing else changes. -/
def Obligations.DataAccessFaultsArePrecise : Prop :=
  ∀ (x y : Reg) (n : Nat) (s : State),
    ((Instr.drw x y n).wf = true → 0 < n → 4096 < s.I.toNat + n →
      exec (.drw x y n) s = .next { s with status := .halted (.addressFault (max s.I.toNat 4096)) }) ∧
    (4096 < s.I.toNat + 3 →
      exec (.ldB x) s = .next { s with status := .halted (.addressFault (max s.I.toNat 4096)) }) ∧
    (4096 < s.I.toNat + x.val + 1 →
      exec (.ldMemStore x) s = .next { s with status := .halted (.addressFault (max s.I.toNat 4096)) } ∧
      exec (.ldMemLoad x) s = .next { s with status := .halted (.addressFault (max s.I.toNat 4096)) })

/-! ## Keypad, timers and wait -/

/-- R75, R76: the latch tested is the one the register's low 4 bits name. -/
def Obligations.KeySkipsTestTheNamedLatch : Prop :=
  ∀ (x : Reg) (k : Key) (s : State),
    decode (0xE#4 ++ regField x ++ 0x9E#8) = some (.skp x) ∧
    decode (0xE#4 ++ regField x ++ 0xA1#8) = some (.sknp x) ∧
    (k.val = (reg s x).toNat % 16 →
      (∃ t, exec (.skp x) s = .next t ∧ (s.key[k.val] = true → t.pc = s.pc + 4#16) ∧
        (s.key[k.val] = false → t.pc = s.pc + 2#16) ∧ t = { s with pc := t.pc }) ∧
      (∃ t, exec (.sknp x) s = .next t ∧ (s.key[k.val] = false → t.pc = s.pc + 4#16) ∧
        (s.key[k.val] = true → t.pc = s.pc + 2#16) ∧ t = { s with pc := t.pc }))

/-- R77, R78, R79. -/
def Obligations.TimerMovesCopyOneByte : Prop :=
  ∀ (x : Reg) (s : State),
    decode (0xF#4 ++ regField x ++ 0x07#8) = some (.ldVxDt x) ∧
    decode (0xF#4 ++ regField x ++ 0x15#8) = some (.ldDtVx x) ∧
    decode (0xF#4 ++ regField x ++ 0x18#8) = some (.ldStVx x) ∧
    (∃ t, exec (.ldVxDt x) s = .next t ∧ WritesOnly s t x s.DT) ∧
    (∃ t, exec (.ldDtVx x) s = .next t ∧ t.DT = reg s x ∧ t.pc = s.pc + 2#16 ∧ t = { s with DT := t.DT, pc := t.pc }) ∧
    (∃ t, exec (.ldStVx x) s = .next t ∧ t.ST = reg s x ∧ t.pc = s.pc + 2#16 ∧ t = { s with ST := t.ST, pc := t.pc })

/-- R80, with D17 and D18: each execution of Fx0A, by the sub-state it finds. -/
def Obligations.WaitForKeyCompletesOnRelease : Prop :=
  ∀ (x : Reg) (s : State),
    (s.waiting = false → ∃ t, exec (.ldVxK x) s = .next t ∧ t.waiting = true ∧ t.candidate = none ∧
      t = { s with wait := t.wait }) ∧
    (s.waiting = true → s.candidate = none → exec (.ldVxK x) s = .next s) ∧
    (∀ k : Key, s.candidate = some k → s.key[k.val] = true → exec (.ldVxK x) s = .next s) ∧
    (∀ k : Key, s.candidate = some k → s.key[k.val] = false → ∃ t, exec (.ldVxK x) s = .next t ∧
      (reg t x).toNat = k.val ∧ (∀ r, r ≠ x → reg t r = reg s r) ∧ t.waiting = false ∧ t.candidate = none ∧
      t.pc = s.pc + 2#16 ∧ t = { s with V := t.V, wait := t.wait, pc := t.pc })

/-- R81 and R96, with D29: KeyEvent sets its latch, and a press during a wait with no candidate becomes the candidate;
Tick, Render and every other instruction leave the sub-state alone. -/
def Obligations.InputWaitTable : Prop :=
  (∀ (k : Key) (p : Bool) (s : State), s.status = .running → ∃ t, applyOp (.keyEvent k p) s = .next t ∧
    (∀ j : Key, t.key[j.val] = if j = k then p else s.key[j.val]) ∧
    t.waiting = s.waiting ∧
    t.candidate = (if p = true ∧ s.waiting = true ∧ s.candidate = none then some k else s.candidate) ∧
    t = { s with key := t.key, wait := t.wait }) ∧
  (∀ (s t : State) (op : HostOp), op ≠ .advance → (∀ k p, op ≠ .keyEvent k p) → applyOp op s = .next t →
    t.wait = s.wait) ∧
  (∀ (i : Instr) (s t : State), (∀ x, i ≠ .ldVxK x) → exec i s = .next t → t.wait = s.wait)

/-- R80 (its Example) and R113, with D17: a press and a release between Advances take the wait through to its end. The
schedule is the assumption that R103 has such a claim state (assumption 5). -/
def Obligations.WaitEndsAfterPressAndRelease : Prop :=
  ∀ (s : State) (w : Word) (x : Reg) (k : Key), s.status = .running → s.waiting = false →
    fetch s.mem s.pc = .ok w → decode w = some (.ldVxK x) →
    s.schedule = [.advance, .keyEvent k true, .advance, .keyEvent k false, .advance] →
    ∃ t, Host.Core.run core 5 s = .next t ∧ (reg t x).toNat = k.val ∧ t.pc = s.pc + 2#16 ∧ t.waiting = false ∧
      t = { s with V := t.V, pc := t.pc, key := t.key, schedule := [] }

/-! ## Memory operations -/

/-- R82. -/
def Obligations.GlyphAddressIsFiveTimesTheDigit : Prop :=
  ∀ (x : Reg) (s : State), decode (0xF#4 ++ regField x ++ 0x29#8) = some (.ldF x) ∧
    ∃ t, exec (.ldF x) s = .next t ∧ t.I.toNat = 5 * ((reg s x).toNat % 16) ∧ t.pc = s.pc + 2#16 ∧
      t = { s with I := t.I, pc := t.pc }

/-- R83, with D9 for the range: the digits, the three stored bytes, and every other byte as before.
`inv` includes the model's own canonical form of memory (assumption 11). -/
def Obligations.BcdStoresThreeDigits : Prop :=
  ∀ (x : Reg) (s : State), s.inv → s.I.toNat + 2 < 4096 →
    ∃ t, exec (.ldB x) s = .next t ∧
      (t.mem.read s.I.toNat).toNat = (reg s x).toNat / 100 ∧
      (t.mem.read (s.I.toNat + 1)).toNat = (reg s x).toNat / 10 % 10 ∧
      (t.mem.read (s.I.toNat + 2)).toNat = (reg s x).toNat % 10 ∧
      (∀ a, a < s.I.toNat ∨ s.I.toNat + 3 ≤ a → t.mem.read a = s.mem.read a) ∧
      t.pc = s.pc + 2#16 ∧ t = { s with mem := t.mem, pc := t.pc }

/-- R84, with D9 and D12: V0 to Vx are stored from I upward, every other byte is as before, and I advances by x + 1.
`inv` includes the model's own canonical form of memory (assumption 11). -/
def Obligations.RegisterDumpStoresV0ThroughVx : Prop :=
  ∀ (x : Reg) (s : State), s.inv → s.I.toNat + x.val < 4096 →
    ∃ t, exec (.ldMemStore x) s = .next t ∧
      (∀ r : Reg, r ≤ x → t.mem.read (s.I.toNat + r.val) = reg s r) ∧
      (∀ a, a < s.I.toNat ∨ s.I.toNat + x.val + 1 ≤ a → t.mem.read a = s.mem.read a) ∧
      t.I.toNat = s.I.toNat + x.val + 1 ∧ t.pc = s.pc + 2#16 ∧ t = { s with mem := t.mem, I := t.I, pc := t.pc }

/-- R85, with D9 and D12: V0 to Vx are loaded from I upward, VF among them where `x = F`, and I advances by x + 1. -/
def Obligations.RegisterLoadReadsV0ThroughVx : Prop :=
  ∀ (x : Reg) (s : State), s.I.toNat + x.val < 4096 →
    ∃ t, exec (.ldMemLoad x) s = .next t ∧
      (∀ r : Reg, r ≤ x → reg t r = s.mem.read (s.I.toNat + r.val)) ∧
      (∀ r : Reg, x < r → reg t r = reg s r) ∧
      t.I.toNat = s.I.toNat + x.val + 1 ∧ t.pc = s.pc + 2#16 ∧ t = { s with V := t.V, I := t.I, pc := t.pc }

/-- W7 of 95_test_vectors.md with the condition 90_conflicts.md C10 keeps ("through the same index-register origin"): a
load in any later state with that memory and that index register gives the dumped registers back.
`inv` includes the model's own canonical form of memory (assumption 11). -/
def Obligations.DumpThenLoadRestoresTheRegisters : Prop :=
  ∀ (x : Reg) (s u : State), s.inv → s.I.toNat + x.val < 4096 →
    ∃ t, exec (.ldMemStore x) s = .next t ∧
      (u.mem = t.mem → u.I = s.I → ∃ v, exec (.ldMemLoad x) u = .next v ∧
        (∀ r : Reg, r ≤ x → reg v r = reg s r) ∧ v.I = t.I)

/-! ## Memory -/

/-- R28, R33, with D1 and D9 (assumptions 1 and 12): a write changes exactly the addressed byte; outside memory both accesses
raise AddressFault with that address. The canonical form `wf`, which the write is given and keeps, is no rule of the spec: it
is the model's choice of a representation (assumption 11). -/
def Obligations.WriteChangesExactlyTheAddressedByte : Prop :=
  ∀ (m : Memory) (a : Nat) (v : Byte), m.wf = true →
    (a < 4096 → ∃ m', memWrite m a v = .ok m' ∧ m'.wf = true ∧ memRead m' a = .ok v ∧
      ∀ c, c ≠ a → memRead m' c = memRead m c) ∧
    (4096 ≤ a → memWrite m a v = .error (.raise (.addressFault a)) ∧
      memRead m a = .error (.raise (.addressFault a)))

/-- The model's own (assumption 11): in canonical form, memories that read alike are equal data. -/
def Obligations.MemoriesThatReadAlikeAreEqual : Prop :=
  ∀ m m' : Memory, m.wf = true → m'.wf = true → (∀ a, a < 4096 → m.read a = m'.read a) → m = m'

/-! ## Invariants -/

/-- The invariants hold in the state after Construct with an empty ROM (R25): SP at most 16 (R16, with D22), the bounds on
`pc` and the return addresses (R14, with D11), and Fx0A at `pc` while waiting (R80). The canonical form of memory, the other
part of `inv`, is no rule of the spec: it is the model's choice of a representation (assumption 11). -/
def Obligations.ResetMeetsTheInvariants : Prop :=
  State.reset.inv ∧ State.reset.pcBounded ∧ State.reset.waitsAtFx0A

/-- R16 ("SP <= 16 always holds", with D22), and the canonical form of memory (assumption 11): every step keeps them,
whichever host operation it is. -/
def Obligations.StepKeepsMemoryAndStackPointerLegal : Prop :=
  ∀ s t : State, s.inv → step s = .next t → t.inv

/-- R14, with D1, D9 and D11: no reachable `pc` needs the reduction modulo 2^16. -/
def Obligations.StepKeepsPcBounded : Prop :=
  ∀ s t : State, s.pcBounded → step s = .next t → t.pcBounded

/-- R80 (a corner case the spec derives): while the machine waits, the instruction at `pc` is Fx0A. -/
def Obligations.StepKeepsWaitingAtFx0A : Prop :=
  ∀ s t : State, s.waitsAtFx0A → step s = .next t → t.waitsAtFx0A

/-! ## Rules of the whole machine -/

/-- R21: "mutated only by the drawing instruction and by the clear-screen instruction". -/
def Obligations.OnlyDrawAndClearMutateTheDisplay : Prop :=
  (∀ (i : Instr) (s t : State), ¬ mutatesDisplay i → exec i s = .next t → t.disp = s.disp) ∧
  (∀ (op : HostOp) (s t : State), op ≠ .advance → applyOp op s = .next t → t.disp = s.disp)

/-- R16 and R32, with D22 for the stack: no instruction but Fx33 and Fx55 stores to memory, none but 2nnn and 00EE
touches SP or the stack, and no host operation but Advance touches either. -/
def Obligations.OnlyTheirInstructionsTouchMemoryAndStack : Prop :=
  (∀ (i : Instr) (s t : State), exec i s = .next t →
    (¬ storesToMemory i → t.mem = s.mem) ∧ (¬ usesStack i → t.SP = s.SP ∧ t.stack = s.stack)) ∧
  (∀ (op : HostOp) (s t : State), op ≠ .advance → applyOp op s = .next t →
    t.mem = s.mem ∧ t.SP = s.SP ∧ t.stack = s.stack)

/-- R20: the latches are written by KeyEvent only, and read by Ex9E, ExA1 and Fx0A only. -/
def Obligations.LatchesChangeOnlyByKeyEvent : Prop :=
  (∀ (i : Instr) (s t : State), exec i s = .next t → t.key = s.key) ∧
  (∀ (op : HostOp) (s t : State), op ≠ .advance → (∀ k p, op ≠ .keyEvent k p) → applyOp op s = .next t →
    t.key = s.key) ∧
  (∀ (i : Instr) (s t : State) (keys : Vector Bool 16), (∀ x, i ≠ .skp x ∧ i ≠ .sknp x ∧ i ≠ .ldVxK x) →
    exec i s = .next t → exec i { s with key := keys } = .next { t with key := keys })

/-- R18: the delay timer is written by Fx15 and Tick only, and read by Fx07 only. -/
def Obligations.DelayTimerIsTouchedOnlyByItsRules : Prop :=
  (∀ (i : Instr) (s t : State), (∀ x, i ≠ .ldDtVx x) → exec i s = .next t → t.DT = s.DT) ∧
  (∀ (op : HostOp) (s t : State), op ≠ .advance → op ≠ .tick → applyOp op s = .next t → t.DT = s.DT) ∧
  (∀ (x : Reg) (s : State), ∃ t, exec (.ldDtVx x) s = .next t ∧ t.DT = reg s x) ∧
  (∀ s : State, s.status = .running → ∃ t, applyOp .tick s = .next t ∧ t.DT.toNat = s.DT.toNat - 1) ∧
  (∀ (x : Reg) (s : State), ∃ t, exec (.ldVxDt x) s = .next t ∧ reg t x = s.DT) ∧
  (∀ (i : Instr) (s t : State) (v : Byte), (∀ x, i ≠ .ldVxDt x) → exec i s = .next t →
    ∃ u, exec i { s with DT := v } = .next u ∧ { u with DT := 0#8 } = { t with DT := 0#8 })

/-- R19, R23, R24 and R90, with D14, D23 and D26: a program cannot see the sound timer, the diagnostic log or the render
colours; changing them changes nothing else of what any instruction does. -/
def Obligations.ProgramsCannotSeeHostOnlyState : Prop :=
  ∀ (i : Instr) (s t : State) (v : Byte) (d : List DiagRecord) (c : Option Colours), exec i s = .next t →
    ∃ u, exec i { s with ST := v, diag := d, colours := c } = .next u ∧
      { u with ST := 0#8, diag := [], colours := none } = { t with ST := 0#8, diag := [], colours := none }

/-- The table of R12, with D7 for the target of Bnnn, D13 for a fatal Advance, D14 for an unknown word and D17 for Fx0A:
the successor of `pc` for every instruction, for an unknown word, and the unchanged `pc` of a fatal Advance. -/
def Obligations.PcSuccessorFollowsTheTable : Prop :=
  (∀ (i : Instr) (s t : State), s.status = .running → exec i s = .next t → t.status = .running →
    t.pc = successorPc i s) ∧
  (∀ (s t : State) (w : Word), advance s = .next t → fetch s.mem s.pc = .ok w → decode w = none →
    t.pc = s.pc + 2#16) ∧
  (∀ s t : State, advance s = .next t → t.status ≠ .running → t.pc = s.pc)

/-- R9 and R10: an instruction changes no general register outside its destinations and, for the flag writers, VF. -/
def Obligations.InstructionsWriteOnlyTheirRegisters : Prop :=
  ∀ (i : Instr) (s t : State) (r : Reg), exec i s = .next t → ¬ mayWriteReg i r → reg t r = reg s r

/-- R23, with D13 and D14: the log only grows, and a step from a halted machine leaves it halted with the same cause. -/
def Obligations.DiagGrowsAndStatusChangesOnce : Prop :=
  ∀ s t : State, step s = .next t →
    (∃ more, t.diag = s.diag ++ more) ∧ (∀ c, s.status = .halted c → t.status = .halted c)

/-! ## Host operations -/

/-- R95. -/
def Obligations.TickDecrementsBothTimersToZero : Prop :=
  ∀ s : State, s.status = .running → ∃ t, applyOp .tick s = .next t ∧
    (s.DT.toNat > 0 → t.DT.toNat = s.DT.toNat - 1) ∧ (s.DT.toNat = 0 → t.DT.toNat = 0) ∧
    (s.ST.toNat > 0 → t.ST.toNat = s.ST.toNat - 1) ∧ (s.ST.toNat = 0 → t.ST.toNat = 0) ∧
    t = { s with DT := t.DT, ST := t.ST }

/-- R97: the frame's size, the place of each cell's colour triple, and that Render changes nothing. -/
def Obligations.RenderMapsEachCellToItsColour : Prop :=
  ∀ s : State, applyOp .render s = .next s ∧
    (renderFrame s).width = 64 ∧ (renderFrame s).height = 32 ∧ (renderFrame s).bytes.length = 6144 ∧
    ∀ (x : Fin 64) (y : Fin 32) (c : Config.Rgb),
      c = (if cell s.disp x y then fgColour s else bgColour s) →
      (renderFrame s).bytes[3 * (y.val * 64 + x.val)]? = some c.r ∧
      (renderFrame s).bytes[3 * (y.val * 64 + x.val) + 1]? = some c.g ∧
      (renderFrame s).bytes[3 * (y.val * 64 + x.val) + 2]? = some c.b

/-- R98, with D23 for the default pair: the first SetColours takes effect, a later one is refused, and colours given to
Construct count as the one setting. That a refused operation has no step at all is the model's reading, assumption 6. -/
def Obligations.ColoursAreSetOnce : Prop :=
  (∀ (s : State) (c : Colours), s.status = .running → s.colours = none →
    ∃ t, applyOp (.setColours c) s = .next t ∧ fgColour t = c.fg ∧ bgColour t = c.bg ∧
      t = { s with colours := t.colours } ∧ ∀ c', applyOp (.setColours c') t = .refused .coloursAlreadySet) ∧
  (∀ (s : State) (c : Colours) (rom : List Byte), construct rom (some c) = .ok s →
    fgColour s = c.fg ∧ bgColour s = c.bg ∧ ∀ c', applyOp (.setColours c') s = .refused .coloursAlreadySet)

/-- R105 and R106, with D1, D2 and D3: a ROM above the limit gives LoadError; any other gives the machine in its reset
state with the image of R106 as its memory. The glyphs are the rows of R107 (D3, assumption 2), five bytes to a number. That
the memory is in canonical form, a part of `inv`, is the model's own (assumption 11). -/
def Obligations.ConstructBuildsTheImageOrFails : Prop :=
  ∀ (rom : List Byte) (colours : Option Colours),
    (3584 < rom.length → construct rom colours = .error ⟨rom.length⟩) ∧
    (rom.length ≤ 3584 → ∃ s, construct rom colours = .ok s ∧
      (∀ (d : Fin 16) (r : Fin 5), (s.mem.read (5 * d.val + r.val)).toNat =
        [0xF0909090F0, 0x2060202070, 0xF010F080F0, 0xF010F010F0, 0x9090F01010, 0xF080F010F0, 0xF080F090F0, 0xF010204040,
          0xF090F090F0, 0xF090F010F0, 0xF090F09090, 0xE090E090E0, 0xF0808080F0, 0xE0909090E0, 0xF080F080F0,
          0xF080F08080].getD d.val 0 / 256 ^ (4 - r.val) % 256) ∧
      (∀ a, 80 ≤ a → a < 0x200 → s.mem.read a = 0#8) ∧
      (∀ i, i < rom.length → rom[i]? = some (s.mem.read (0x200 + i))) ∧
      (∀ a, 0x200 + rom.length ≤ a → a < 4096 → s.mem.read a = 0#8) ∧
      s.inv ∧ s = { State.reset with mem := s.mem, colours := colours })

/-- R25, with D1, D2, D13, D14, D22, D31 and D32: the state after Construct with an empty ROM and no colours. The
fields of the model's own are not among them. -/
def Obligations.ResetValuesAreTheListedOnes : Prop :=
  construct [] none = .ok State.reset ∧
  (∀ r : Reg, reg State.reset r = 0#8) ∧ State.reset.pc = 0x200#16 ∧ State.reset.I = 0#16 ∧
  State.reset.SP = 0#8 ∧ (∀ j : Fin 16, State.reset.stack[j.val] = 0#16) ∧
  State.reset.DT = 0#8 ∧ State.reset.ST = 0#8 ∧ (∀ k : Key, State.reset.key[k.val] = false) ∧
  (∀ x y, cell State.reset.disp x y = false) ∧ State.reset.waiting = false ∧ State.reset.candidate = none ∧
  State.reset.status = .running ∧ State.reset.diag = [] ∧
  fgColour State.reset = Config.defaultFg ∧ bgColour State.reset = Config.defaultBg
end

