-- ==== Sys2Proof/Laws/Decode.lean ====
section
/-! SUPPORT. What each packing of fields reads back as, field by field (30_encoding.md R42), and that the two bytes of a
word join to the word again (20_memory.md R30). -/

namespace Sys2Proof

@[simp] theorem regField_toFin (x : Reg) : (regField x).toFin = x := rfl

theorem regField_fieldX (w : Word) : regField (fieldX w) = w.extractLsb' 8 4 := rfl

theorem regField_fieldY (w : Word) : regField (fieldY w) = w.extractLsb' 4 4 := rfl

/-! The bits of a packed word. -/

theorem getLsbD_packNNN (op : BitVec 4) (nnn : Addr12) (i : Nat) :
    (packNNN op nnn).getLsbD i = if i < 12 then nnn.getLsbD i else op.getLsbD (i - 12) :=
  BitVec.getLsbD_append

theorem getLsbD_packXKK (op : BitVec 4) (x : Reg) (kk : Byte) (i : Nat) :
    (packXKK op x kk).getLsbD i =
      if i < 8 then kk.getLsbD i
      else if i - 8 < 4 then (regField x).getLsbD (i - 8) else op.getLsbD (i - 8 - 4) := by
  have h := BitVec.getLsbD_append (x := (op ++ regField x : BitVec (4 + 4))) (y := kk) (i := i)
  have h' := BitVec.getLsbD_append (x := op) (y := regField x) (i := i - 8)
  rw [h'] at h
  exact h

theorem getLsbD_packXYN (op : BitVec 4) (x y : Reg) (n : BitVec 4) (i : Nat) :
    (packXYN op x y n).getLsbD i =
      if i < 4 then n.getLsbD i
      else if i - 4 < 4 then (regField y).getLsbD (i - 4)
      else if i - 4 - 4 < 4 then (regField x).getLsbD (i - 4 - 4) else op.getLsbD (i - 4 - 4 - 4) := by
  have h := BitVec.getLsbD_append (x := (op ++ regField x ++ regField y : BitVec (4 + 4 + 4))) (y := n) (i := i)
  have h' := BitVec.getLsbD_append (x := (op ++ regField x : BitVec (4 + 4))) (y := regField y) (i := i - 4)
  have h'' := BitVec.getLsbD_append (x := op) (y := regField x) (i := i - 4 - 4)
  rw [h', h''] at h
  exact h

theorem getLsbD_wordOfBytes (hi lo : Byte) (i : Nat) :
    (wordOfBytes hi lo).getLsbD i = if i < 8 then lo.getLsbD i else hi.getLsbD (i - 8) :=
  BitVec.getLsbD_append

/-! Each field of a packed word. -/

@[simp] theorem fieldOp_packNNN (op : BitVec 4) (nnn : Addr12) : fieldOp (packNNN op nnn) = op := by
  apply BitVec.eq_of_getLsbD_eq
  intro i hi
  simp [fieldOp, getLsbD_packNNN, hi]

@[simp] theorem fieldNNN_packNNN (op : BitVec 4) (nnn : Addr12) : fieldNNN (packNNN op nnn) = nnn := by
  apply BitVec.eq_of_getLsbD_eq
  intro i hi
  simp [fieldNNN, getLsbD_packNNN, hi]

@[simp] theorem fieldOp_packXKK (op : BitVec 4) (x : Reg) (kk : Byte) : fieldOp (packXKK op x kk) = op := by
  apply BitVec.eq_of_getLsbD_eq
  intro i hi
  have h1 : ¬ 12 + i < 8 := by omega
  have h2 : ¬ 12 + i - 8 < 4 := by omega
  have h3 : 12 + i - 8 - 4 = i := by omega
  simp only [fieldOp, BitVec.getLsbD_extractLsb', getLsbD_packXKK, h1, h2, h3, hi, if_false, decide_true, Bool.true_and]

@[simp] theorem fieldX_packXKK (op : BitVec 4) (x : Reg) (kk : Byte) : fieldX (packXKK op x kk) = x := by
  have h : (packXKK op x kk).extractLsb' 8 4 = regField x := by
    apply BitVec.eq_of_getLsbD_eq
    intro i hi
    simp [getLsbD_packXKK, hi]
  simp [fieldX, h]

@[simp] theorem fieldKK_packXKK (op : BitVec 4) (x : Reg) (kk : Byte) : fieldKK (packXKK op x kk) = kk := by
  apply BitVec.eq_of_getLsbD_eq
  intro i hi
  simp [fieldKK, getLsbD_packXKK, hi]

@[simp] theorem fieldOp_packXYN (op : BitVec 4) (x y : Reg) (n : BitVec 4) : fieldOp (packXYN op x y n) = op := by
  apply BitVec.eq_of_getLsbD_eq
  intro i hi
  have h1 : ¬ 12 + i < 4 := by omega
  have h2 : ¬ 12 + i - 4 < 4 := by omega
  have h3 : ¬ 12 + i - 4 - 4 < 4 := by omega
  have h4 : 12 + i - 4 - 4 - 4 = i := by omega
  simp only [fieldOp, BitVec.getLsbD_extractLsb', getLsbD_packXYN, h1, h2, h3, h4, hi, if_false, decide_true,
    Bool.true_and]

@[simp] theorem fieldX_packXYN (op : BitVec 4) (x y : Reg) (n : BitVec 4) : fieldX (packXYN op x y n) = x := by
  have h : (packXYN op x y n).extractLsb' 8 4 = regField x := by
    apply BitVec.eq_of_getLsbD_eq
    intro i hi
    have h1 : ¬ 8 + i < 4 := by omega
    have h2 : ¬ 8 + i - 4 < 4 := by omega
    have h3 : 8 + i - 4 - 4 = i := by omega
    simp only [BitVec.getLsbD_extractLsb', getLsbD_packXYN, h1, h2, h3, hi, if_false, if_true, decide_true,
      Bool.true_and]
  simp [fieldX, h]

@[simp] theorem fieldY_packXYN (op : BitVec 4) (x y : Reg) (n : BitVec 4) : fieldY (packXYN op x y n) = y := by
  have h : (packXYN op x y n).extractLsb' 4 4 = regField y := by
    apply BitVec.eq_of_getLsbD_eq
    intro i hi
    simp [getLsbD_packXYN, hi]
  simp [fieldY, h]

@[simp] theorem fieldN_packXYN (op : BitVec 4) (x y : Reg) (n : BitVec 4) : fieldN (packXYN op x y n) = n := by
  apply BitVec.eq_of_getLsbD_eq
  intro i hi
  simp [fieldN, getLsbD_packXYN, hi]

/-! A word is the packing of its own fields. -/

theorem packNNN_fields (w : Word) : packNNN (fieldOp w) (fieldNNN w) = w := by
  apply BitVec.eq_of_getLsbD_eq
  intro i hi
  rw [getLsbD_packNNN]
  split
  · rename_i h
    simp [fieldNNN, h]
  · rename_i h
    have h1 : i - 12 < 4 := by omega
    have h2 : 12 + (i - 12) = i := by omega
    simp [fieldOp, h1, h2]

theorem packXKK_fields (w : Word) : packXKK (fieldOp w) (fieldX w) (fieldKK w) = w := by
  apply BitVec.eq_of_getLsbD_eq
  intro i hi
  rw [getLsbD_packXKK]
  split
  · rename_i h
    simp [fieldKK, h]
  · split
    · rename_i h h'
      have h2 : 8 + (i - 8) = i := by omega
      simp [regField_fieldX, -BitVec.getLsbD_eq_getElem, h', h2]
    · rename_i h h'
      have h1 : i - 8 - 4 < 4 := by omega
      have h2 : 12 + (i - 8 - 4) = i := by omega
      simp [fieldOp, h1, h2]

theorem packXYN_fields (w : Word) : packXYN (fieldOp w) (fieldX w) (fieldY w) (fieldN w) = w := by
  apply BitVec.eq_of_getLsbD_eq
  intro i hi
  rw [getLsbD_packXYN]
  split
  · rename_i h
    simp [fieldN, h]
  · split
    · rename_i h h'
      have h2 : 4 + (i - 4) = i := by omega
      simp [regField_fieldY, -BitVec.getLsbD_eq_getElem, h', h2]
    · split
      · rename_i h h' h''
        have h2 : 8 + (i - 4 - 4) = i := by omega
        simp [regField_fieldX, -BitVec.getLsbD_eq_getElem, h'', h2]
      · rename_i h h' h''
        have h1 : i - 4 - 4 - 4 < 4 := by omega
        have h2 : 12 + (i - 4 - 4 - 4) = i := by omega
        simp [fieldOp, h1, h2]

/-! The bytes of a word. -/

@[simp] theorem wordOfBytes_hiByte_loByte (w : Word) : wordOfBytes (hiByte w) (loByte w) = w := by
  apply BitVec.eq_of_getLsbD_eq
  intro i hi
  rw [getLsbD_wordOfBytes]
  split
  · rename_i h
    simp [loByte, h]
  · rename_i h
    have h1 : i - 8 < 8 := by omega
    have h2 : 8 + (i - 8) = i := by omega
    simp [hiByte, h1, h2]

end Sys2Proof
end

