-- ==== Sys2Proof/Laws/Memory.lean ====
section
/-! SUPPORT. The laws of the byte memory (20_memory.md R28 to R33): what a read after a write gives, that every operation
keeps the canonical form, and when the byte sequences of R32 succeed and what they do then. -/

namespace Sys2Proof.Machine

/-! ## One byte -/

theorem Memory.wfFrom_cons {lo k : Nat} {b : Byte} {rest : Memory} :
    Memory.wfFrom lo ((k, b) :: rest) ↔
      lo ≤ k ∧ k < 4096 ∧ b ≠ resetByte k ∧ Memory.wfFrom (k + 1) rest := by
  simp [Memory.wfFrom, and_assoc]

/-- A later starting address asks for less of what follows it. -/
theorem Memory.wfFrom_mono {lo lo' : Nat} {m : Memory} (h : lo' ≤ lo) (hm : m.wfFrom lo) : m.wfFrom lo' := by
  cases m with
  | nil => rfl
  | cons e rest =>
    obtain ⟨k, b⟩ := e
    rw [Memory.wfFrom_cons] at hm ⊢
    exact ⟨by omega, hm.2⟩

/-- An address below every entry reads as when unlisted. -/
theorem Memory.read_below {lo a : Nat} {m : Memory} (h : m.wfFrom lo) (ha : a < lo) : m.read a = resetByte a := by
  induction m generalizing lo with
  | nil => rfl
  | cons e rest ih =>
    obtain ⟨k, b⟩ := e
    rw [Memory.wfFrom_cons] at h
    have hne : k ≠ a := by omega
    simp only [Memory.read, hne, if_false]
    exact ih h.2.2.2 (by omega)

theorem Memory.read_write_from {lo : Nat} {m : Memory} (h : m.wfFrom lo) (a c : Nat) (v : Byte) :
    (m.write a v).read c = if c = a then v else m.read c := by
  induction m generalizing lo with
  | nil =>
    by_cases hv : v = resetByte a <;> by_cases hc : c = a
    · simp [Memory.write, Memory.read, hv, hc]
    · simp [Memory.write, Memory.read, hv, hc]
    · simp [Memory.write, Memory.read, hv, hc]
    · simp [Memory.write, Memory.read, hv, hc, Ne.symm hc]
  | cons e rest ih =>
    obtain ⟨k, b⟩ := e
    have hm := h
    rw [Memory.wfFrom_cons] at h
    obtain ⟨-, -, -, hrest⟩ := h
    rcases Nat.lt_trichotomy a k with hak | hak | hak
    · have hbelow : Memory.read ((k, b) :: rest) a = resetByte a :=
        Memory.read_below (lo := k) (Memory.wfFrom_cons.2 ⟨le_refl k, (Memory.wfFrom_cons.1 hm).2⟩) hak
      by_cases hv : v = resetByte a
      · rw [Memory.write, if_pos hak, if_pos hv]
        split
        · rename_i hc
          rw [hc, hbelow, hv]
        · rfl
      · rw [Memory.write, if_pos hak, if_neg hv, Memory.read]
        simp only [eq_comm]
    · subst hak
      have hbelow : Memory.read rest a = resetByte a := Memory.read_below hrest (by omega)
      by_cases hv : v = resetByte a <;> by_cases hc : c = a
      · simp [Memory.write, hv, hc, hbelow]
      · simp [Memory.write, Memory.read, hv, hc, Ne.symm hc]
      · simp [Memory.write, Memory.read, hv, hc]
      · simp [Memory.write, Memory.read, hv, hc, Ne.symm hc]
    · have h1 : ¬ a < k := by omega
      have h2 : ¬ a = k := by omega
      rw [Memory.write, if_neg h1, if_neg h2, Memory.read, Memory.read, ih hrest]
      split
      · rename_i hk
        have : c ≠ a := by omega
        simp [this]
      · rfl

/-- A read after a write: the value written at that address, the old byte anywhere else (R33). -/
theorem Memory.read_write {m : Memory} (h : m.wf) (a c : Nat) (v : Byte) :
    (m.write a v).read c = if c = a then v else m.read c :=
  Memory.read_write_from h a c v

theorem Memory.wfFrom_write {lo a : Nat} {m : Memory} (v : Byte) (h : m.wfFrom lo) (hlo : lo ≤ a) (ha : a < 4096) :
    (m.write a v).wfFrom lo := by
  induction m generalizing lo with
  | nil =>
    by_cases hv : v = resetByte a
    · simp [Memory.write, hv, Memory.wfFrom]
    · simp [Memory.write, hv, Memory.wfFrom, hlo, ha]
  | cons e rest ih =>
    obtain ⟨k, b⟩ := e
    rw [Memory.wfFrom_cons] at h
    obtain ⟨h1, h2, h3, hrest⟩ := h
    rcases Nat.lt_trichotomy a k with hak | hak | hak
    · by_cases hv : v = resetByte a
      · rw [Memory.write, if_pos hak, if_pos hv]
        exact Memory.wfFrom_cons.2 ⟨h1, h2, h3, hrest⟩
      · rw [Memory.write, if_pos hak, if_neg hv]
        exact Memory.wfFrom_cons.2 ⟨hlo, ha, hv, Memory.wfFrom_cons.2 ⟨by omega, h2, h3, hrest⟩⟩
    · subst hak
      by_cases hv : v = resetByte a
      · rw [Memory.write, if_neg (by omega), if_pos rfl, if_pos hv]
        exact Memory.wfFrom_mono (by omega) hrest
      · rw [Memory.write, if_neg (by omega), if_pos rfl, if_neg hv]
        exact Memory.wfFrom_cons.2 ⟨hlo, ha, hv, hrest⟩
    · rw [Memory.write, if_neg (by omega), if_neg (by omega)]
      exact Memory.wfFrom_cons.2 ⟨h1, h2, h3, ih hrest (by omega)⟩

/-- A write inside the address space keeps the canonical form. -/
theorem Memory.wf_write {m : Memory} (h : m.wf) {a : Nat} (ha : a < 4096) (v : Byte) : (m.write a v).wf :=
  Memory.wfFrom_write v h (Nat.zero_le a) ha

/-! ## The checked accesses (R28) -/

theorem memRead_ok {m : Memory} {a : Nat} (h : a < 4096) : memRead m a = .ok (m.read a) := by
  simp [memRead, Nat.not_le.2 h]

theorem memRead_fault {m : Memory} {a : Nat} (h : 4096 ≤ a) : memRead m a = .error (.raise (.addressFault a)) := by
  simp [memRead, h]

theorem memWrite_ok {m : Memory} {a : Nat} (v : Byte) (h : a < 4096) : memWrite m a v = .ok (m.write a v) := by
  simp [memWrite, Nat.not_le.2 h]

theorem memWrite_fault {m : Memory} {a : Nat} (v : Byte) (h : 4096 ≤ a) :
    memWrite m a v = .error (.raise (.addressFault a)) := by
  simp [memWrite, h]

/-! ## Sequences of reads (R32) -/

/-- The bytes a successful block read gives. -/
def blockAt (m : Memory) (a n : Nat) : List Byte := (List.range n).map fun i => m.read (a + i)

@[simp] theorem blockAt_length (m : Memory) (a n : Nat) : (blockAt m a n).length = n := by simp [blockAt]

theorem blockAt_succ (m : Memory) (a n : Nat) : blockAt m a (n + 1) = m.read a :: blockAt m (a + 1) n := by
  simp [blockAt, List.range_succ_eq_map, Function.comp_def, Nat.add_assoc, Nat.add_comm 1]

theorem readBytes_ok {m : Memory} {a n : Nat} (h : a + n ≤ 4096) : readBytes m a n = .ok (blockAt m a n) := by
  induction n generalizing a with
  | zero => rfl
  | succ n ih => rw [readBytes, memRead_ok (by omega), ih (by omega), blockAt_succ]

/-- A block read that leaves the address space faults at its lowest address outside (R91, decision D9). -/
theorem readBytes_fault {m : Memory} {a n : Nat} (hn : 0 < n) (h : 4096 < a + n) :
    readBytes m a n = .error (.raise (.addressFault (max a 4096))) := by
  induction n generalizing a with
  | zero => omega
  | succ n ih =>
    by_cases ha : a < 4096
    · rw [readBytes, memRead_ok ha, ih (a := a + 1) (by omega) (by omega)]
      have h1 : max (a + 1) 4096 = 4096 := by omega
      have h2 : max a 4096 = 4096 := by omega
      simp [h1, h2]
    · rw [readBytes, memRead_fault (by omega)]
      have h2 : max a 4096 = a := by omega
      simp [h2]

theorem readBytes_zero (m : Memory) (a : Nat) : readBytes m a 0 = .ok [] := rfl

/-! ## Sequences of writes (R32) -/

theorem writeBytes_ok {m : Memory} {a : Nat} {bs : List Byte} (h : a + bs.length ≤ 4096) :
    writeBytes m a bs = .ok (storeImage m a bs) := by
  induction bs generalizing a m with
  | nil => rfl
  | cons b bs ih =>
    simp only [List.length_cons] at h
    rw [writeBytes, memWrite_ok b (by omega), storeImage]
    exact ih (by omega)

/-- A block write that leaves the address space faults at its lowest address outside (R91, decision D9). -/
theorem writeBytes_fault {m : Memory} {a : Nat} {bs : List Byte} (hn : 0 < bs.length) (h : 4096 < a + bs.length) :
    writeBytes m a bs = .error (.raise (.addressFault (max a 4096))) := by
  induction bs generalizing a m with
  | nil => simp at hn
  | cons b bs ih =>
    simp only [List.length_cons] at h
    by_cases ha : a < 4096
    · rw [writeBytes, memWrite_ok b ha]
      have h2 : max (a + 1) 4096 = max a 4096 := by omega
      rw [← h2]
      exact ih (by omega) (by omega)
    · have h2 : max a 4096 = a := by omega
      rw [writeBytes, memWrite_fault b (by omega), h2]

/-- An image stored inside the address space keeps the canonical form. -/
theorem storeImage_wf {m : Memory} {a : Nat} {bs : List Byte} (hm : m.wf) (h : a + bs.length ≤ 4096) :
    (storeImage m a bs).wf := by
  induction bs generalizing a m with
  | nil => exact hm
  | cons b bs ih =>
    simp only [List.length_cons] at h
    exact ih (Memory.wf_write hm (by omega) b) (by omega)

/-- What every address reads as after an image is stored: the image's own byte inside it, the old byte outside. -/
theorem storeImage_read {m : Memory} {a : Nat} {bs : List Byte} (hm : m.wf) (h : a + bs.length ≤ 4096) (c : Nat) :
    (storeImage m a bs).read c = if a ≤ c ∧ c < a + bs.length then bs.getD (c - a) 0#8 else m.read c := by
  induction bs generalizing a m with
  | nil =>
    have : ¬ (a ≤ c ∧ c < a + ([] : List Byte).length) := by simp
    rw [if_neg this]; rfl
  | cons b bs ih =>
    simp only [List.length_cons] at h
    rw [storeImage, ih (Memory.wf_write hm (by omega) b) (by omega), Memory.read_write hm]
    simp only [List.length_cons]
    by_cases hc : c = a
    · subst hc
      simp
    · by_cases hin : a + 1 ≤ c ∧ c < a + 1 + bs.length
      · have h2 : a ≤ c ∧ c < a + (bs.length + 1) := by omega
        have h3 : c - a = (c - (a + 1)) + 1 := by omega
        rw [if_pos hin, if_pos h2, h3]
        simp
      · have h2 : ¬ (a ≤ c ∧ c < a + (bs.length + 1)) := by omega
        rw [if_neg hin, if_neg h2, if_neg hc]

theorem storeImage_read_inside {m : Memory} {a : Nat} {bs : List Byte} (hm : m.wf) (h : a + bs.length ≤ 4096) {i : Nat}
    (hi : i < bs.length) : (storeImage m a bs).read (a + i) = bs.getD i 0#8 := by
  rw [storeImage_read hm h, if_pos (by omega), Nat.add_sub_cancel_left]

theorem storeImage_read_outside {m : Memory} {a : Nat} {bs : List Byte} (hm : m.wf) (h : a + bs.length ≤ 4096) {c : Nat}
    (hc : c < a ∨ a + bs.length ≤ c) : (storeImage m a bs).read c = m.read c := by
  rw [storeImage_read hm h, if_neg (by omega)]

/-! ## Fetch (R30) -/

theorem fetch_ok {m : Memory} {pc : Word} (h : pc.toNat + 1 < 4096) :
    fetch m pc = .ok (wordOfBytes (m.read pc.toNat) (m.read (pc.toNat + 1))) := by
  rw [fetch, memRead_ok (by omega), memRead_ok (by omega)]

/-- A fetch that leaves the address space faults at its lowest byte outside (R30, R91(2)). -/
theorem fetch_fault {m : Memory} {pc : Word} (h : 4096 ≤ pc.toNat + 1) :
    fetch m pc = .error (.raise (.addressFault (max pc.toNat 4096))) := by
  by_cases h' : pc.toNat < 4096
  · have h1 : pc.toNat + 1 = 4096 := by omega
    have h2 : max pc.toNat 4096 = 4096 := by omega
    rw [fetch, memRead_ok h', h1, memRead_fault (Nat.le_refl 4096), h2]
  · have h2 : max pc.toNat 4096 = pc.toNat := by omega
    rw [fetch, memRead_fault (by omega), h2]

end Sys2Proof.Machine
end

