-- ==== Sys2Proof/Laws/State.lean ====
section
/-! SUPPORT. One lemma per field per update of State, each true by rfl, so that no proof unfolds a record update. -/

namespace Sys2Proof.Machine.State

variable (s : State)

/-! `setV` -/

@[simp] theorem setV_V (x : Reg) (v : Byte) : (s.setV x v).V = s.V.set x.val v x.isLt := rfl
@[simp] theorem setV_pc (x : Reg) (v : Byte) : (s.setV x v).pc = s.pc := rfl
@[simp] theorem setV_I (x : Reg) (v : Byte) : (s.setV x v).I = s.I := rfl
@[simp] theorem setV_SP (x : Reg) (v : Byte) : (s.setV x v).SP = s.SP := rfl
@[simp] theorem setV_stack (x : Reg) (v : Byte) : (s.setV x v).stack = s.stack := rfl
@[simp] theorem setV_DT (x : Reg) (v : Byte) : (s.setV x v).DT = s.DT := rfl
@[simp] theorem setV_ST (x : Reg) (v : Byte) : (s.setV x v).ST = s.ST := rfl
@[simp] theorem setV_key (x : Reg) (v : Byte) : (s.setV x v).key = s.key := rfl
@[simp] theorem setV_disp (x : Reg) (v : Byte) : (s.setV x v).disp = s.disp := rfl
@[simp] theorem setV_mem (x : Reg) (v : Byte) : (s.setV x v).mem = s.mem := rfl
@[simp] theorem setV_wait (x : Reg) (v : Byte) : (s.setV x v).wait = s.wait := rfl
@[simp] theorem setV_status (x : Reg) (v : Byte) : (s.setV x v).status = s.status := rfl
@[simp] theorem setV_diag (x : Reg) (v : Byte) : (s.setV x v).diag = s.diag := rfl
@[simp] theorem setV_colours (x : Reg) (v : Byte) : (s.setV x v).colours = s.colours := rfl
@[simp] theorem setV_draws (x : Reg) (v : Byte) : (s.setV x v).draws = s.draws := rfl
@[simp] theorem setV_schedule (x : Reg) (v : Byte) : (s.setV x v).schedule = s.schedule := rfl
@[simp] theorem setV_tail (x : Reg) (v : Byte) : (s.setV x v).tail = s.tail := rfl

/-! `setRegs` -/

@[simp] theorem setRegs_V (v : Vector Byte 16) : (s.setRegs v).V = v := rfl
@[simp] theorem setRegs_pc (v : Vector Byte 16) : (s.setRegs v).pc = s.pc := rfl
@[simp] theorem setRegs_I (v : Vector Byte 16) : (s.setRegs v).I = s.I := rfl
@[simp] theorem setRegs_SP (v : Vector Byte 16) : (s.setRegs v).SP = s.SP := rfl
@[simp] theorem setRegs_stack (v : Vector Byte 16) : (s.setRegs v).stack = s.stack := rfl
@[simp] theorem setRegs_DT (v : Vector Byte 16) : (s.setRegs v).DT = s.DT := rfl
@[simp] theorem setRegs_ST (v : Vector Byte 16) : (s.setRegs v).ST = s.ST := rfl
@[simp] theorem setRegs_key (v : Vector Byte 16) : (s.setRegs v).key = s.key := rfl
@[simp] theorem setRegs_disp (v : Vector Byte 16) : (s.setRegs v).disp = s.disp := rfl
@[simp] theorem setRegs_mem (v : Vector Byte 16) : (s.setRegs v).mem = s.mem := rfl
@[simp] theorem setRegs_wait (v : Vector Byte 16) : (s.setRegs v).wait = s.wait := rfl
@[simp] theorem setRegs_status (v : Vector Byte 16) : (s.setRegs v).status = s.status := rfl
@[simp] theorem setRegs_diag (v : Vector Byte 16) : (s.setRegs v).diag = s.diag := rfl
@[simp] theorem setRegs_colours (v : Vector Byte 16) : (s.setRegs v).colours = s.colours := rfl
@[simp] theorem setRegs_draws (v : Vector Byte 16) : (s.setRegs v).draws = s.draws := rfl
@[simp] theorem setRegs_schedule (v : Vector Byte 16) : (s.setRegs v).schedule = s.schedule := rfl
@[simp] theorem setRegs_tail (v : Vector Byte 16) : (s.setRegs v).tail = s.tail := rfl

/-! `setPc` -/

@[simp] theorem setPc_V (a : Word) : (s.setPc a).V = s.V := rfl
@[simp] theorem setPc_pc (a : Word) : (s.setPc a).pc = a := rfl
@[simp] theorem setPc_I (a : Word) : (s.setPc a).I = s.I := rfl
@[simp] theorem setPc_SP (a : Word) : (s.setPc a).SP = s.SP := rfl
@[simp] theorem setPc_stack (a : Word) : (s.setPc a).stack = s.stack := rfl
@[simp] theorem setPc_DT (a : Word) : (s.setPc a).DT = s.DT := rfl
@[simp] theorem setPc_ST (a : Word) : (s.setPc a).ST = s.ST := rfl
@[simp] theorem setPc_key (a : Word) : (s.setPc a).key = s.key := rfl
@[simp] theorem setPc_disp (a : Word) : (s.setPc a).disp = s.disp := rfl
@[simp] theorem setPc_mem (a : Word) : (s.setPc a).mem = s.mem := rfl
@[simp] theorem setPc_wait (a : Word) : (s.setPc a).wait = s.wait := rfl
@[simp] theorem setPc_status (a : Word) : (s.setPc a).status = s.status := rfl
@[simp] theorem setPc_diag (a : Word) : (s.setPc a).diag = s.diag := rfl
@[simp] theorem setPc_colours (a : Word) : (s.setPc a).colours = s.colours := rfl
@[simp] theorem setPc_draws (a : Word) : (s.setPc a).draws = s.draws := rfl
@[simp] theorem setPc_schedule (a : Word) : (s.setPc a).schedule = s.schedule := rfl
@[simp] theorem setPc_tail (a : Word) : (s.setPc a).tail = s.tail := rfl

/-! `setI` -/

@[simp] theorem setI_V (a : Word) : (s.setI a).V = s.V := rfl
@[simp] theorem setI_pc (a : Word) : (s.setI a).pc = s.pc := rfl
@[simp] theorem setI_I (a : Word) : (s.setI a).I = a := rfl
@[simp] theorem setI_SP (a : Word) : (s.setI a).SP = s.SP := rfl
@[simp] theorem setI_stack (a : Word) : (s.setI a).stack = s.stack := rfl
@[simp] theorem setI_DT (a : Word) : (s.setI a).DT = s.DT := rfl
@[simp] theorem setI_ST (a : Word) : (s.setI a).ST = s.ST := rfl
@[simp] theorem setI_key (a : Word) : (s.setI a).key = s.key := rfl
@[simp] theorem setI_disp (a : Word) : (s.setI a).disp = s.disp := rfl
@[simp] theorem setI_mem (a : Word) : (s.setI a).mem = s.mem := rfl
@[simp] theorem setI_wait (a : Word) : (s.setI a).wait = s.wait := rfl
@[simp] theorem setI_status (a : Word) : (s.setI a).status = s.status := rfl
@[simp] theorem setI_diag (a : Word) : (s.setI a).diag = s.diag := rfl
@[simp] theorem setI_colours (a : Word) : (s.setI a).colours = s.colours := rfl
@[simp] theorem setI_draws (a : Word) : (s.setI a).draws = s.draws := rfl
@[simp] theorem setI_schedule (a : Word) : (s.setI a).schedule = s.schedule := rfl
@[simp] theorem setI_tail (a : Word) : (s.setI a).tail = s.tail := rfl

/-! `setSP` -/

@[simp] theorem setSP_V (n : Byte) : (s.setSP n).V = s.V := rfl
@[simp] theorem setSP_pc (n : Byte) : (s.setSP n).pc = s.pc := rfl
@[simp] theorem setSP_I (n : Byte) : (s.setSP n).I = s.I := rfl
@[simp] theorem setSP_SP (n : Byte) : (s.setSP n).SP = n := rfl
@[simp] theorem setSP_stack (n : Byte) : (s.setSP n).stack = s.stack := rfl
@[simp] theorem setSP_DT (n : Byte) : (s.setSP n).DT = s.DT := rfl
@[simp] theorem setSP_ST (n : Byte) : (s.setSP n).ST = s.ST := rfl
@[simp] theorem setSP_key (n : Byte) : (s.setSP n).key = s.key := rfl
@[simp] theorem setSP_disp (n : Byte) : (s.setSP n).disp = s.disp := rfl
@[simp] theorem setSP_mem (n : Byte) : (s.setSP n).mem = s.mem := rfl
@[simp] theorem setSP_wait (n : Byte) : (s.setSP n).wait = s.wait := rfl
@[simp] theorem setSP_status (n : Byte) : (s.setSP n).status = s.status := rfl
@[simp] theorem setSP_diag (n : Byte) : (s.setSP n).diag = s.diag := rfl
@[simp] theorem setSP_colours (n : Byte) : (s.setSP n).colours = s.colours := rfl
@[simp] theorem setSP_draws (n : Byte) : (s.setSP n).draws = s.draws := rfl
@[simp] theorem setSP_schedule (n : Byte) : (s.setSP n).schedule = s.schedule := rfl
@[simp] theorem setSP_tail (n : Byte) : (s.setSP n).tail = s.tail := rfl

/-! `setStack` -/

@[simp] theorem setStack_V (j : Fin 16) (v : Word) : (s.setStack j v).V = s.V := rfl
@[simp] theorem setStack_pc (j : Fin 16) (v : Word) : (s.setStack j v).pc = s.pc := rfl
@[simp] theorem setStack_I (j : Fin 16) (v : Word) : (s.setStack j v).I = s.I := rfl
@[simp] theorem setStack_SP (j : Fin 16) (v : Word) : (s.setStack j v).SP = s.SP := rfl
@[simp] theorem setStack_stack (j : Fin 16) (v : Word) : (s.setStack j v).stack = s.stack.set j.val v j.isLt := rfl
@[simp] theorem setStack_DT (j : Fin 16) (v : Word) : (s.setStack j v).DT = s.DT := rfl
@[simp] theorem setStack_ST (j : Fin 16) (v : Word) : (s.setStack j v).ST = s.ST := rfl
@[simp] theorem setStack_key (j : Fin 16) (v : Word) : (s.setStack j v).key = s.key := rfl
@[simp] theorem setStack_disp (j : Fin 16) (v : Word) : (s.setStack j v).disp = s.disp := rfl
@[simp] theorem setStack_mem (j : Fin 16) (v : Word) : (s.setStack j v).mem = s.mem := rfl
@[simp] theorem setStack_wait (j : Fin 16) (v : Word) : (s.setStack j v).wait = s.wait := rfl
@[simp] theorem setStack_status (j : Fin 16) (v : Word) : (s.setStack j v).status = s.status := rfl
@[simp] theorem setStack_diag (j : Fin 16) (v : Word) : (s.setStack j v).diag = s.diag := rfl
@[simp] theorem setStack_colours (j : Fin 16) (v : Word) : (s.setStack j v).colours = s.colours := rfl
@[simp] theorem setStack_draws (j : Fin 16) (v : Word) : (s.setStack j v).draws = s.draws := rfl
@[simp] theorem setStack_schedule (j : Fin 16) (v : Word) : (s.setStack j v).schedule = s.schedule := rfl
@[simp] theorem setStack_tail (j : Fin 16) (v : Word) : (s.setStack j v).tail = s.tail := rfl

/-! `setDT` -/

@[simp] theorem setDT_V (v : Byte) : (s.setDT v).V = s.V := rfl
@[simp] theorem setDT_pc (v : Byte) : (s.setDT v).pc = s.pc := rfl
@[simp] theorem setDT_I (v : Byte) : (s.setDT v).I = s.I := rfl
@[simp] theorem setDT_SP (v : Byte) : (s.setDT v).SP = s.SP := rfl
@[simp] theorem setDT_stack (v : Byte) : (s.setDT v).stack = s.stack := rfl
@[simp] theorem setDT_DT (v : Byte) : (s.setDT v).DT = v := rfl
@[simp] theorem setDT_ST (v : Byte) : (s.setDT v).ST = s.ST := rfl
@[simp] theorem setDT_key (v : Byte) : (s.setDT v).key = s.key := rfl
@[simp] theorem setDT_disp (v : Byte) : (s.setDT v).disp = s.disp := rfl
@[simp] theorem setDT_mem (v : Byte) : (s.setDT v).mem = s.mem := rfl
@[simp] theorem setDT_wait (v : Byte) : (s.setDT v).wait = s.wait := rfl
@[simp] theorem setDT_status (v : Byte) : (s.setDT v).status = s.status := rfl
@[simp] theorem setDT_diag (v : Byte) : (s.setDT v).diag = s.diag := rfl
@[simp] theorem setDT_colours (v : Byte) : (s.setDT v).colours = s.colours := rfl
@[simp] theorem setDT_draws (v : Byte) : (s.setDT v).draws = s.draws := rfl
@[simp] theorem setDT_schedule (v : Byte) : (s.setDT v).schedule = s.schedule := rfl
@[simp] theorem setDT_tail (v : Byte) : (s.setDT v).tail = s.tail := rfl

/-! `setST` -/

@[simp] theorem setST_V (v : Byte) : (s.setST v).V = s.V := rfl
@[simp] theorem setST_pc (v : Byte) : (s.setST v).pc = s.pc := rfl
@[simp] theorem setST_I (v : Byte) : (s.setST v).I = s.I := rfl
@[simp] theorem setST_SP (v : Byte) : (s.setST v).SP = s.SP := rfl
@[simp] theorem setST_stack (v : Byte) : (s.setST v).stack = s.stack := rfl
@[simp] theorem setST_DT (v : Byte) : (s.setST v).DT = s.DT := rfl
@[simp] theorem setST_ST (v : Byte) : (s.setST v).ST = v := rfl
@[simp] theorem setST_key (v : Byte) : (s.setST v).key = s.key := rfl
@[simp] theorem setST_disp (v : Byte) : (s.setST v).disp = s.disp := rfl
@[simp] theorem setST_mem (v : Byte) : (s.setST v).mem = s.mem := rfl
@[simp] theorem setST_wait (v : Byte) : (s.setST v).wait = s.wait := rfl
@[simp] theorem setST_status (v : Byte) : (s.setST v).status = s.status := rfl
@[simp] theorem setST_diag (v : Byte) : (s.setST v).diag = s.diag := rfl
@[simp] theorem setST_colours (v : Byte) : (s.setST v).colours = s.colours := rfl
@[simp] theorem setST_draws (v : Byte) : (s.setST v).draws = s.draws := rfl
@[simp] theorem setST_schedule (v : Byte) : (s.setST v).schedule = s.schedule := rfl
@[simp] theorem setST_tail (v : Byte) : (s.setST v).tail = s.tail := rfl

/-! `setKey` -/

@[simp] theorem setKey_V (k : Key) (p : Bool) : (s.setKey k p).V = s.V := rfl
@[simp] theorem setKey_pc (k : Key) (p : Bool) : (s.setKey k p).pc = s.pc := rfl
@[simp] theorem setKey_I (k : Key) (p : Bool) : (s.setKey k p).I = s.I := rfl
@[simp] theorem setKey_SP (k : Key) (p : Bool) : (s.setKey k p).SP = s.SP := rfl
@[simp] theorem setKey_stack (k : Key) (p : Bool) : (s.setKey k p).stack = s.stack := rfl
@[simp] theorem setKey_DT (k : Key) (p : Bool) : (s.setKey k p).DT = s.DT := rfl
@[simp] theorem setKey_ST (k : Key) (p : Bool) : (s.setKey k p).ST = s.ST := rfl
@[simp] theorem setKey_key (k : Key) (p : Bool) : (s.setKey k p).key = s.key.set k.val p k.isLt := rfl
@[simp] theorem setKey_disp (k : Key) (p : Bool) : (s.setKey k p).disp = s.disp := rfl
@[simp] theorem setKey_mem (k : Key) (p : Bool) : (s.setKey k p).mem = s.mem := rfl
@[simp] theorem setKey_wait (k : Key) (p : Bool) : (s.setKey k p).wait = s.wait := rfl
@[simp] theorem setKey_status (k : Key) (p : Bool) : (s.setKey k p).status = s.status := rfl
@[simp] theorem setKey_diag (k : Key) (p : Bool) : (s.setKey k p).diag = s.diag := rfl
@[simp] theorem setKey_colours (k : Key) (p : Bool) : (s.setKey k p).colours = s.colours := rfl
@[simp] theorem setKey_draws (k : Key) (p : Bool) : (s.setKey k p).draws = s.draws := rfl
@[simp] theorem setKey_schedule (k : Key) (p : Bool) : (s.setKey k p).schedule = s.schedule := rfl
@[simp] theorem setKey_tail (k : Key) (p : Bool) : (s.setKey k p).tail = s.tail := rfl

/-! `setDisp` -/

@[simp] theorem setDisp_V (d : Display) : (s.setDisp d).V = s.V := rfl
@[simp] theorem setDisp_pc (d : Display) : (s.setDisp d).pc = s.pc := rfl
@[simp] theorem setDisp_I (d : Display) : (s.setDisp d).I = s.I := rfl
@[simp] theorem setDisp_SP (d : Display) : (s.setDisp d).SP = s.SP := rfl
@[simp] theorem setDisp_stack (d : Display) : (s.setDisp d).stack = s.stack := rfl
@[simp] theorem setDisp_DT (d : Display) : (s.setDisp d).DT = s.DT := rfl
@[simp] theorem setDisp_ST (d : Display) : (s.setDisp d).ST = s.ST := rfl
@[simp] theorem setDisp_key (d : Display) : (s.setDisp d).key = s.key := rfl
@[simp] theorem setDisp_disp (d : Display) : (s.setDisp d).disp = d := rfl
@[simp] theorem setDisp_mem (d : Display) : (s.setDisp d).mem = s.mem := rfl
@[simp] theorem setDisp_wait (d : Display) : (s.setDisp d).wait = s.wait := rfl
@[simp] theorem setDisp_status (d : Display) : (s.setDisp d).status = s.status := rfl
@[simp] theorem setDisp_diag (d : Display) : (s.setDisp d).diag = s.diag := rfl
@[simp] theorem setDisp_colours (d : Display) : (s.setDisp d).colours = s.colours := rfl
@[simp] theorem setDisp_draws (d : Display) : (s.setDisp d).draws = s.draws := rfl
@[simp] theorem setDisp_schedule (d : Display) : (s.setDisp d).schedule = s.schedule := rfl
@[simp] theorem setDisp_tail (d : Display) : (s.setDisp d).tail = s.tail := rfl

/-! `setMem` -/

@[simp] theorem setMem_V (m : Memory) : (s.setMem m).V = s.V := rfl
@[simp] theorem setMem_pc (m : Memory) : (s.setMem m).pc = s.pc := rfl
@[simp] theorem setMem_I (m : Memory) : (s.setMem m).I = s.I := rfl
@[simp] theorem setMem_SP (m : Memory) : (s.setMem m).SP = s.SP := rfl
@[simp] theorem setMem_stack (m : Memory) : (s.setMem m).stack = s.stack := rfl
@[simp] theorem setMem_DT (m : Memory) : (s.setMem m).DT = s.DT := rfl
@[simp] theorem setMem_ST (m : Memory) : (s.setMem m).ST = s.ST := rfl
@[simp] theorem setMem_key (m : Memory) : (s.setMem m).key = s.key := rfl
@[simp] theorem setMem_disp (m : Memory) : (s.setMem m).disp = s.disp := rfl
@[simp] theorem setMem_mem (m : Memory) : (s.setMem m).mem = m := rfl
@[simp] theorem setMem_wait (m : Memory) : (s.setMem m).wait = s.wait := rfl
@[simp] theorem setMem_status (m : Memory) : (s.setMem m).status = s.status := rfl
@[simp] theorem setMem_diag (m : Memory) : (s.setMem m).diag = s.diag := rfl
@[simp] theorem setMem_colours (m : Memory) : (s.setMem m).colours = s.colours := rfl
@[simp] theorem setMem_draws (m : Memory) : (s.setMem m).draws = s.draws := rfl
@[simp] theorem setMem_schedule (m : Memory) : (s.setMem m).schedule = s.schedule := rfl
@[simp] theorem setMem_tail (m : Memory) : (s.setMem m).tail = s.tail := rfl

/-! `setWait` -/

@[simp] theorem setWait_V (w : WaitState) : (s.setWait w).V = s.V := rfl
@[simp] theorem setWait_pc (w : WaitState) : (s.setWait w).pc = s.pc := rfl
@[simp] theorem setWait_I (w : WaitState) : (s.setWait w).I = s.I := rfl
@[simp] theorem setWait_SP (w : WaitState) : (s.setWait w).SP = s.SP := rfl
@[simp] theorem setWait_stack (w : WaitState) : (s.setWait w).stack = s.stack := rfl
@[simp] theorem setWait_DT (w : WaitState) : (s.setWait w).DT = s.DT := rfl
@[simp] theorem setWait_ST (w : WaitState) : (s.setWait w).ST = s.ST := rfl
@[simp] theorem setWait_key (w : WaitState) : (s.setWait w).key = s.key := rfl
@[simp] theorem setWait_disp (w : WaitState) : (s.setWait w).disp = s.disp := rfl
@[simp] theorem setWait_mem (w : WaitState) : (s.setWait w).mem = s.mem := rfl
@[simp] theorem setWait_wait (w : WaitState) : (s.setWait w).wait = w := rfl
@[simp] theorem setWait_status (w : WaitState) : (s.setWait w).status = s.status := rfl
@[simp] theorem setWait_diag (w : WaitState) : (s.setWait w).diag = s.diag := rfl
@[simp] theorem setWait_colours (w : WaitState) : (s.setWait w).colours = s.colours := rfl
@[simp] theorem setWait_draws (w : WaitState) : (s.setWait w).draws = s.draws := rfl
@[simp] theorem setWait_schedule (w : WaitState) : (s.setWait w).schedule = s.schedule := rfl
@[simp] theorem setWait_tail (w : WaitState) : (s.setWait w).tail = s.tail := rfl

/-! `setStatus` -/

@[simp] theorem setStatus_V (r : RunStatus) : (s.setStatus r).V = s.V := rfl
@[simp] theorem setStatus_pc (r : RunStatus) : (s.setStatus r).pc = s.pc := rfl
@[simp] theorem setStatus_I (r : RunStatus) : (s.setStatus r).I = s.I := rfl
@[simp] theorem setStatus_SP (r : RunStatus) : (s.setStatus r).SP = s.SP := rfl
@[simp] theorem setStatus_stack (r : RunStatus) : (s.setStatus r).stack = s.stack := rfl
@[simp] theorem setStatus_DT (r : RunStatus) : (s.setStatus r).DT = s.DT := rfl
@[simp] theorem setStatus_ST (r : RunStatus) : (s.setStatus r).ST = s.ST := rfl
@[simp] theorem setStatus_key (r : RunStatus) : (s.setStatus r).key = s.key := rfl
@[simp] theorem setStatus_disp (r : RunStatus) : (s.setStatus r).disp = s.disp := rfl
@[simp] theorem setStatus_mem (r : RunStatus) : (s.setStatus r).mem = s.mem := rfl
@[simp] theorem setStatus_wait (r : RunStatus) : (s.setStatus r).wait = s.wait := rfl
@[simp] theorem setStatus_status (r : RunStatus) : (s.setStatus r).status = r := rfl
@[simp] theorem setStatus_diag (r : RunStatus) : (s.setStatus r).diag = s.diag := rfl
@[simp] theorem setStatus_colours (r : RunStatus) : (s.setStatus r).colours = s.colours := rfl
@[simp] theorem setStatus_draws (r : RunStatus) : (s.setStatus r).draws = s.draws := rfl
@[simp] theorem setStatus_schedule (r : RunStatus) : (s.setStatus r).schedule = s.schedule := rfl
@[simp] theorem setStatus_tail (r : RunStatus) : (s.setStatus r).tail = s.tail := rfl

/-! `appendDiag` -/

@[simp] theorem appendDiag_V (r : DiagRecord) : (s.appendDiag r).V = s.V := rfl
@[simp] theorem appendDiag_pc (r : DiagRecord) : (s.appendDiag r).pc = s.pc := rfl
@[simp] theorem appendDiag_I (r : DiagRecord) : (s.appendDiag r).I = s.I := rfl
@[simp] theorem appendDiag_SP (r : DiagRecord) : (s.appendDiag r).SP = s.SP := rfl
@[simp] theorem appendDiag_stack (r : DiagRecord) : (s.appendDiag r).stack = s.stack := rfl
@[simp] theorem appendDiag_DT (r : DiagRecord) : (s.appendDiag r).DT = s.DT := rfl
@[simp] theorem appendDiag_ST (r : DiagRecord) : (s.appendDiag r).ST = s.ST := rfl
@[simp] theorem appendDiag_key (r : DiagRecord) : (s.appendDiag r).key = s.key := rfl
@[simp] theorem appendDiag_disp (r : DiagRecord) : (s.appendDiag r).disp = s.disp := rfl
@[simp] theorem appendDiag_mem (r : DiagRecord) : (s.appendDiag r).mem = s.mem := rfl
@[simp] theorem appendDiag_wait (r : DiagRecord) : (s.appendDiag r).wait = s.wait := rfl
@[simp] theorem appendDiag_status (r : DiagRecord) : (s.appendDiag r).status = s.status := rfl
@[simp] theorem appendDiag_diag (r : DiagRecord) : (s.appendDiag r).diag = s.diag ++ [r] := rfl
@[simp] theorem appendDiag_colours (r : DiagRecord) : (s.appendDiag r).colours = s.colours := rfl
@[simp] theorem appendDiag_draws (r : DiagRecord) : (s.appendDiag r).draws = s.draws := rfl
@[simp] theorem appendDiag_schedule (r : DiagRecord) : (s.appendDiag r).schedule = s.schedule := rfl
@[simp] theorem appendDiag_tail (r : DiagRecord) : (s.appendDiag r).tail = s.tail := rfl

/-! `setColours` -/

@[simp] theorem setColours_V (c : Colours) : (s.setColours c).V = s.V := rfl
@[simp] theorem setColours_pc (c : Colours) : (s.setColours c).pc = s.pc := rfl
@[simp] theorem setColours_I (c : Colours) : (s.setColours c).I = s.I := rfl
@[simp] theorem setColours_SP (c : Colours) : (s.setColours c).SP = s.SP := rfl
@[simp] theorem setColours_stack (c : Colours) : (s.setColours c).stack = s.stack := rfl
@[simp] theorem setColours_DT (c : Colours) : (s.setColours c).DT = s.DT := rfl
@[simp] theorem setColours_ST (c : Colours) : (s.setColours c).ST = s.ST := rfl
@[simp] theorem setColours_key (c : Colours) : (s.setColours c).key = s.key := rfl
@[simp] theorem setColours_disp (c : Colours) : (s.setColours c).disp = s.disp := rfl
@[simp] theorem setColours_mem (c : Colours) : (s.setColours c).mem = s.mem := rfl
@[simp] theorem setColours_wait (c : Colours) : (s.setColours c).wait = s.wait := rfl
@[simp] theorem setColours_status (c : Colours) : (s.setColours c).status = s.status := rfl
@[simp] theorem setColours_diag (c : Colours) : (s.setColours c).diag = s.diag := rfl
@[simp] theorem setColours_colours (c : Colours) : (s.setColours c).colours = some c := rfl
@[simp] theorem setColours_draws (c : Colours) : (s.setColours c).draws = s.draws := rfl
@[simp] theorem setColours_schedule (c : Colours) : (s.setColours c).schedule = s.schedule := rfl
@[simp] theorem setColours_tail (c : Colours) : (s.setColours c).tail = s.tail := rfl

/-! `countDraw` -/

@[simp] theorem countDraw_V : (s.countDraw).V = s.V := rfl
@[simp] theorem countDraw_pc : (s.countDraw).pc = s.pc := rfl
@[simp] theorem countDraw_I : (s.countDraw).I = s.I := rfl
@[simp] theorem countDraw_SP : (s.countDraw).SP = s.SP := rfl
@[simp] theorem countDraw_stack : (s.countDraw).stack = s.stack := rfl
@[simp] theorem countDraw_DT : (s.countDraw).DT = s.DT := rfl
@[simp] theorem countDraw_ST : (s.countDraw).ST = s.ST := rfl
@[simp] theorem countDraw_key : (s.countDraw).key = s.key := rfl
@[simp] theorem countDraw_disp : (s.countDraw).disp = s.disp := rfl
@[simp] theorem countDraw_mem : (s.countDraw).mem = s.mem := rfl
@[simp] theorem countDraw_wait : (s.countDraw).wait = s.wait := rfl
@[simp] theorem countDraw_status : (s.countDraw).status = s.status := rfl
@[simp] theorem countDraw_diag : (s.countDraw).diag = s.diag := rfl
@[simp] theorem countDraw_colours : (s.countDraw).colours = s.colours := rfl
@[simp] theorem countDraw_draws : (s.countDraw).draws = s.draws + 1 := rfl
@[simp] theorem countDraw_schedule : (s.countDraw).schedule = s.schedule := rfl
@[simp] theorem countDraw_tail : (s.countDraw).tail = s.tail := rfl

/-! `setSchedule` -/

@[simp] theorem setSchedule_V (ops : List HostOp) : (s.setSchedule ops).V = s.V := rfl
@[simp] theorem setSchedule_pc (ops : List HostOp) : (s.setSchedule ops).pc = s.pc := rfl
@[simp] theorem setSchedule_I (ops : List HostOp) : (s.setSchedule ops).I = s.I := rfl
@[simp] theorem setSchedule_SP (ops : List HostOp) : (s.setSchedule ops).SP = s.SP := rfl
@[simp] theorem setSchedule_stack (ops : List HostOp) : (s.setSchedule ops).stack = s.stack := rfl
@[simp] theorem setSchedule_DT (ops : List HostOp) : (s.setSchedule ops).DT = s.DT := rfl
@[simp] theorem setSchedule_ST (ops : List HostOp) : (s.setSchedule ops).ST = s.ST := rfl
@[simp] theorem setSchedule_key (ops : List HostOp) : (s.setSchedule ops).key = s.key := rfl
@[simp] theorem setSchedule_disp (ops : List HostOp) : (s.setSchedule ops).disp = s.disp := rfl
@[simp] theorem setSchedule_mem (ops : List HostOp) : (s.setSchedule ops).mem = s.mem := rfl
@[simp] theorem setSchedule_wait (ops : List HostOp) : (s.setSchedule ops).wait = s.wait := rfl
@[simp] theorem setSchedule_status (ops : List HostOp) : (s.setSchedule ops).status = s.status := rfl
@[simp] theorem setSchedule_diag (ops : List HostOp) : (s.setSchedule ops).diag = s.diag := rfl
@[simp] theorem setSchedule_colours (ops : List HostOp) : (s.setSchedule ops).colours = s.colours := rfl
@[simp] theorem setSchedule_draws (ops : List HostOp) : (s.setSchedule ops).draws = s.draws := rfl
@[simp] theorem setSchedule_schedule (ops : List HostOp) : (s.setSchedule ops).schedule = ops := rfl
@[simp] theorem setSchedule_tail (ops : List HostOp) : (s.setSchedule ops).tail = s.tail := rfl

/-! `setTail` -/

@[simp] theorem setTail_V (r : HostTail) : (s.setTail r).V = s.V := rfl
@[simp] theorem setTail_pc (r : HostTail) : (s.setTail r).pc = s.pc := rfl
@[simp] theorem setTail_I (r : HostTail) : (s.setTail r).I = s.I := rfl
@[simp] theorem setTail_SP (r : HostTail) : (s.setTail r).SP = s.SP := rfl
@[simp] theorem setTail_stack (r : HostTail) : (s.setTail r).stack = s.stack := rfl
@[simp] theorem setTail_DT (r : HostTail) : (s.setTail r).DT = s.DT := rfl
@[simp] theorem setTail_ST (r : HostTail) : (s.setTail r).ST = s.ST := rfl
@[simp] theorem setTail_key (r : HostTail) : (s.setTail r).key = s.key := rfl
@[simp] theorem setTail_disp (r : HostTail) : (s.setTail r).disp = s.disp := rfl
@[simp] theorem setTail_mem (r : HostTail) : (s.setTail r).mem = s.mem := rfl
@[simp] theorem setTail_wait (r : HostTail) : (s.setTail r).wait = s.wait := rfl
@[simp] theorem setTail_status (r : HostTail) : (s.setTail r).status = s.status := rfl
@[simp] theorem setTail_diag (r : HostTail) : (s.setTail r).diag = s.diag := rfl
@[simp] theorem setTail_colours (r : HostTail) : (s.setTail r).colours = s.colours := rfl
@[simp] theorem setTail_draws (r : HostTail) : (s.setTail r).draws = s.draws := rfl
@[simp] theorem setTail_schedule (r : HostTail) : (s.setTail r).schedule = s.schedule := rfl
@[simp] theorem setTail_tail (r : HostTail) : (s.setTail r).tail = r := rfl

/-! `advancePc` -/

@[simp] theorem advancePc_V : (s.advancePc).V = s.V := rfl
@[simp] theorem advancePc_pc : (s.advancePc).pc = s.pc + 2#16 := rfl
@[simp] theorem advancePc_I : (s.advancePc).I = s.I := rfl
@[simp] theorem advancePc_SP : (s.advancePc).SP = s.SP := rfl
@[simp] theorem advancePc_stack : (s.advancePc).stack = s.stack := rfl
@[simp] theorem advancePc_DT : (s.advancePc).DT = s.DT := rfl
@[simp] theorem advancePc_ST : (s.advancePc).ST = s.ST := rfl
@[simp] theorem advancePc_key : (s.advancePc).key = s.key := rfl
@[simp] theorem advancePc_disp : (s.advancePc).disp = s.disp := rfl
@[simp] theorem advancePc_mem : (s.advancePc).mem = s.mem := rfl
@[simp] theorem advancePc_wait : (s.advancePc).wait = s.wait := rfl
@[simp] theorem advancePc_status : (s.advancePc).status = s.status := rfl
@[simp] theorem advancePc_diag : (s.advancePc).diag = s.diag := rfl
@[simp] theorem advancePc_colours : (s.advancePc).colours = s.colours := rfl
@[simp] theorem advancePc_draws : (s.advancePc).draws = s.draws := rfl
@[simp] theorem advancePc_schedule : (s.advancePc).schedule = s.schedule := rfl
@[simp] theorem advancePc_tail : (s.advancePc).tail = s.tail := rfl

/-! `skipIf` -/

@[simp] theorem skipIf_V (c : Bool) : (s.skipIf c).V = s.V := by cases c <;> rfl
@[simp] theorem skipIf_pc (c : Bool) : (s.skipIf c).pc = s.pc + (if c then 4#16 else 2#16) := by cases c <;> rfl
@[simp] theorem skipIf_I (c : Bool) : (s.skipIf c).I = s.I := by cases c <;> rfl
@[simp] theorem skipIf_SP (c : Bool) : (s.skipIf c).SP = s.SP := by cases c <;> rfl
@[simp] theorem skipIf_stack (c : Bool) : (s.skipIf c).stack = s.stack := by cases c <;> rfl
@[simp] theorem skipIf_DT (c : Bool) : (s.skipIf c).DT = s.DT := by cases c <;> rfl
@[simp] theorem skipIf_ST (c : Bool) : (s.skipIf c).ST = s.ST := by cases c <;> rfl
@[simp] theorem skipIf_key (c : Bool) : (s.skipIf c).key = s.key := by cases c <;> rfl
@[simp] theorem skipIf_disp (c : Bool) : (s.skipIf c).disp = s.disp := by cases c <;> rfl
@[simp] theorem skipIf_mem (c : Bool) : (s.skipIf c).mem = s.mem := by cases c <;> rfl
@[simp] theorem skipIf_wait (c : Bool) : (s.skipIf c).wait = s.wait := by cases c <;> rfl
@[simp] theorem skipIf_status (c : Bool) : (s.skipIf c).status = s.status := by cases c <;> rfl
@[simp] theorem skipIf_diag (c : Bool) : (s.skipIf c).diag = s.diag := by cases c <;> rfl
@[simp] theorem skipIf_colours (c : Bool) : (s.skipIf c).colours = s.colours := by cases c <;> rfl
@[simp] theorem skipIf_draws (c : Bool) : (s.skipIf c).draws = s.draws := by cases c <;> rfl
@[simp] theorem skipIf_schedule (c : Bool) : (s.skipIf c).schedule = s.schedule := by cases c <;> rfl
@[simp] theorem skipIf_tail (c : Bool) : (s.skipIf c).tail = s.tail := by cases c <;> rfl

/-! Two states with the same fields are the same state. -/

theorem eq_of_fields {s t : State} (hV : s.V = t.V) (hpc : s.pc = t.pc) (hI : s.I = t.I) (hSP : s.SP = t.SP)
    (hstack : s.stack = t.stack) (hDT : s.DT = t.DT) (hST : s.ST = t.ST) (hkey : s.key = t.key)
    (hdisp : s.disp = t.disp) (hmem : s.mem = t.mem) (hwait : s.wait = t.wait) (hstatus : s.status = t.status)
    (hdiag : s.diag = t.diag) (hcolours : s.colours = t.colours) (hdraws : s.draws = t.draws)
    (hschedule : s.schedule = t.schedule) (htail : s.tail = t.tail) : s = t := by
  cases s
  cases t
  simp_all

end Sys2Proof.Machine.State

namespace Sys2Proof.Machine

/-! Reading one register, latch or cell after a write. -/

theorem reg_eq (s : State) (x : Reg) : reg s x = s.V[x.val] := rfl

theorem reg_congr {s t : State} (h : t.V = s.V) (r : Reg) : reg t r = reg s r := by simp [reg, h]

@[simp] theorem reg_setPc (s : State) (a : Word) (r : Reg) : reg (s.setPc a) r = reg s r := rfl
@[simp] theorem reg_setI (s : State) (a : Word) (r : Reg) : reg (s.setI a) r = reg s r := rfl
@[simp] theorem reg_setSP (s : State) (n : Byte) (r : Reg) : reg (s.setSP n) r = reg s r := rfl
@[simp] theorem reg_setStack (s : State) (j : Fin 16) (v : Word) (r : Reg) : reg (s.setStack j v) r = reg s r := rfl
@[simp] theorem reg_setDT (s : State) (v : Byte) (r : Reg) : reg (s.setDT v) r = reg s r := rfl
@[simp] theorem reg_setST (s : State) (v : Byte) (r : Reg) : reg (s.setST v) r = reg s r := rfl
@[simp] theorem reg_setKey (s : State) (k : Key) (p : Bool) (r : Reg) : reg (s.setKey k p) r = reg s r := rfl
@[simp] theorem reg_setDisp (s : State) (d : Display) (r : Reg) : reg (s.setDisp d) r = reg s r := rfl
@[simp] theorem reg_setMem (s : State) (m : Memory) (r : Reg) : reg (s.setMem m) r = reg s r := rfl
@[simp] theorem reg_setWait (s : State) (w : WaitState) (r : Reg) : reg (s.setWait w) r = reg s r := rfl
@[simp] theorem reg_setStatus (s : State) (c : RunStatus) (r : Reg) : reg (s.setStatus c) r = reg s r := rfl
@[simp] theorem reg_countDraw (s : State) (r : Reg) : reg (s.countDraw) r = reg s r := rfl
@[simp] theorem reg_advancePc (s : State) (r : Reg) : reg (s.advancePc) r = reg s r := rfl
@[simp] theorem reg_skipIf (s : State) (c : Bool) (r : Reg) : reg (s.skipIf c) r = reg s r := by cases c <;> rfl

theorem reg_setV (s : State) (x r : Reg) (v : Byte) : reg (s.setV x v) r = if x = r then v else reg s r := by
  simp [reg, Vector.getElem_set, Fin.ext_iff]

@[simp] theorem reg_setV_self (s : State) (x : Reg) (v : Byte) : reg (s.setV x v) x = v := by simp [reg_setV]

theorem reg_setV_ne (s : State) {x r : Reg} (v : Byte) (h : r ≠ x) : reg (s.setV x v) r = reg s r := by
  simp [reg_setV, h.symm]

theorem reg_setResultFlag (s : State) (x r : Reg) (v f : Byte) :
    reg (setResultFlag s x v f) r = if r = VF then f else if r = x then v else reg s r := by
  simp only [setResultFlag, reg_setV, eq_comm]

theorem keyDown_setKey (s : State) (k j : Key) (p : Bool) :
    keyDown (s.setKey k p) j = if k = j then p else keyDown s j := by
  simp [keyDown, Vector.getElem_set, Fin.ext_iff]

end Sys2Proof.Machine
end

