-- ==== Sys2Proof/Laws/Ops.lean ====
section
/-! SUPPORT. What the shared operations of Machine/Ops.lean, Operands.lean and Flags.lean can do, said once for each. -/

namespace Sys2Proof.Machine

/-! ## Ending an Advance (R88, R89) -/

theorem finish_ok (s s' : State) : finish s (.ok s') = .next s' := rfl

theorem finish_raise (s : State) (c : Cause) : finish s (.error (.raise c)) = .next (s.setStatus (.halted c)) := rfl

theorem finish_stuck (s : State) (f : Fault) : finish s (.error (.stuck f)) = .fault f := rfl

/-- An Advance that ends in a next state completed, or took a fatal cause and changed only the status. -/
theorem finish_next {s t : State} {r : Except Stop State} (h : finish s r = .next t) :
    r = .ok t ∨ ∃ c, r = .error (.raise c) ∧ t = s.setStatus (.halted c) := by
  match r, h with
  | .ok s', h => exact .inl (by rw [finish_ok] at h; injection h with h; rw [h])
  | .error (.raise c), h => exact .inr ⟨c, rfl, by rw [finish_raise] at h; injection h with h; exact h.symm⟩
  | .error (.stuck f), h => rw [finish_stuck] at h; cases h

theorem finish_ne_refused (s : State) (r : Except Stop State) (why : Refusal) : finish s r ≠ .refused why := by
  match r with
  | .ok _ => simp [finish]
  | .error (.raise _) => simp [finish, takeFatal]
  | .error (.stuck _) => simp [finish]

/-! ## The call stack (R17) -/

theorem push_room {s : State} (v : Word) {j : Fin 16} (h : s.SP.toNat = j.val) :
    push v s = .ok ((s.setStack j v).setSP (s.SP + 1#8)) := by
  have hlt : s.SP.toNat < Config.stackDepth := by rw [h]; exact j.isLt
  have hj : (⟨s.SP.toNat, hlt⟩ : Fin 16) = j := Fin.ext h
  rw [push, dif_pos hlt, hj]

theorem push_full {s : State} (v : Word) (h : s.SP.toNat = 16) : push v s = .error (.raise .stackOverflow) := by
  simp [push, h]

theorem push_illegal {s : State} (v : Word) (h : 16 < s.SP.toNat) : push v s = .error (.stuck .stackPointerIllegal) := by
  have h1 : ¬ s.SP.toNat < 16 := by omega
  have h2 : ¬ s.SP.toNat = 16 := by omega
  simp [push, h1, h2]

/-- What a push that raises nothing did. -/
theorem push_next {s s' : State} {v : Word} (h : push v s = .ok s') :
    ∃ j : Fin 16, s.SP.toNat = j.val ∧ s' = (s.setStack j v).setSP (s.SP + 1#8) := by
  rw [push] at h
  split at h
  · rename_i hlt
    injection h with h
    exact ⟨⟨s.SP.toNat, hlt⟩, rfl, h.symm⟩
  · split at h <;> cases h

theorem pop_empty {s : State} (h : s.SP = 0#8) : pop s = .error (.raise .stackUnderflow) := by simp [pop, h]

theorem pop_entry {s : State} {j : Fin 16} (h : s.SP.toNat = j.val + 1) :
    pop s = .ok (s.stack[j.val], s.setSP (s.SP - 1#8)) := by
  have h0 : s.SP ≠ 0#8 := by
    intro h0
    rw [h0] at h
    simp at h
  have hj : s.SP.toNat - 1 = j.val := by omega
  have hlt : s.SP.toNat - 1 < Config.stackDepth := by rw [hj]; exact j.isLt
  rw [pop, if_neg h0, dif_pos hlt]
  simp [hj]

theorem pop_illegal {s : State} (h : 16 < s.SP.toNat) : pop s = .error (.stuck .stackPointerIllegal) := by
  have h0 : s.SP ≠ 0#8 := by
    intro h0
    rw [h0] at h
    simp at h
  have hlt : ¬ s.SP.toNat - 1 < 16 := by omega
  rw [pop, if_neg h0, dif_neg hlt]

/-- What a pop that raises nothing did. -/
theorem pop_next {s s' : State} {v : Word} (h : pop s = .ok (v, s')) :
    ∃ j : Fin 16, s.SP.toNat = j.val + 1 ∧ v = s.stack[j.val] ∧ s' = s.setSP (s.SP - 1#8) := by
  rw [pop] at h
  split at h
  · cases h
  · rename_i h0
    split at h
    · rename_i hlt
      injection h with h
      injection h with h1 h2
      have hpos : s.SP.toNat ≠ 0 := by
        intro hz
        exact h0 (BitVec.eq_of_toNat_eq (by simpa using hz))
      exact ⟨⟨s.SP.toNat - 1, hlt⟩, by simp; omega, h1.symm, h2.symm⟩
    · cases h

/-! ## Operands -/

theorem lowNibble_val (v : Byte) : (lowNibble v).val = v.toNat % 16 := by
  simp [lowNibble]

@[simp] theorem regsThrough_length (s : State) (x : Reg) : (regsThrough s x).length = x.val + 1 := by
  have := x.isLt
  simp [regsThrough]

/-- The byte at place `r` of the block Fx55 stores is `V[r]`. -/
theorem regsThrough_getD (s : State) {x r : Reg} (h : r ≤ x) : (regsThrough s x).getD r.val 0#8 = reg s r := by
  have h' : r.val < x.val + 1 := by
    have : r.val ≤ x.val := h
    omega
  simp [regsThrough, List.getD_eq_getElem?_getD, h', reg]

theorem reg_loadRegs (s : State) (bytes : List Byte) (r : Reg) :
    reg (s.setRegs (loadRegs bytes s.V)) r = bytes.getD r.val (reg s r) := by
  simp [reg, loadRegs]

theorem blockAt_getD (m : Memory) {a n i : Nat} (d : Byte) (h : i < n) : (blockAt m a n).getD i d = m.read (a + i) := by
  simp [blockAt, List.getD_eq_getElem?_getD, h]

theorem blockAt_getD_beyond (m : Memory) {a n i : Nat} (d : Byte) (h : n ≤ i) : (blockAt m a n).getD i d = d := by
  simp [blockAt, List.getD_eq_getElem?_getD, h]

@[simp] theorem bcdDigits_length (v : Byte) : (bcdDigits v).length = 3 := by simp [bcdDigits]

theorem zext16_toNat (nnn : Addr12) : (zext16 nnn).toNat = nnn.toNat := by
  have := nnn.isLt
  simp [zext16]
  omega

/-- `I + x + 1` is exact wherever the block lies in memory. -/
theorem indexAfterBlock_toNat {s : State} {x : Reg} (h : s.I.toNat + x.val < 4096) :
    (indexAfterBlock s x).toNat = s.I.toNat + x.val + 1 := by
  have := x.isLt
  simp only [indexAfterBlock, BitVec.toNat_add, BitVec.toNat_ofNat]
  omega

end Sys2Proof.Machine
end

