-- ==== Sys2Proof/Laws/Display.lean ====
section
/-! SUPPORT. What toggling a cell and drawing rows do to each cell of the display (43_display.md R72, R74). -/

namespace Sys2Proof.Machine

theorem cell_blankDisplay (x : Fin 64) (y : Fin 32) : cell blankDisplay x y = false := by
  simp [cell, blankDisplay]

/-- Displays whose cells agree are equal. -/
theorem display_ext {d e : Display} (h : ∀ px py, cell d px py = cell e px py) : d = e := by
  apply Vector.ext
  intro i hi
  apply Vector.ext
  intro j hj
  exact h ⟨j, hj⟩ ⟨i, hi⟩

theorem cell_toggleCell (x px : Fin 64) (y py : Fin 32) (d : DrawResult) :
    cell (toggleCell x y d).disp px py = (cell d.disp px py ^^ decide (px = x ∧ py = y)) := by
  by_cases hy : py = y
  · subst hy
    by_cases hx : px = x
    · subst hx
      simp [cell, toggleCell]
    · have : x.val ≠ px.val := fun h => hx (Fin.ext h.symm)
      simp [cell, toggleCell, hx, this]
  · have : y.val ≠ py.val := fun h => hy (Fin.ext h.symm)
    simp [cell, toggleCell, hy, this]

theorem wrapX_val (a : Nat) : (wrapX a).val = a % 64 := rfl

theorem wrapY_val (a : Nat) : (wrapY a).val = a % 32 := rfl

/-! ## The cells a sprite covers -/

/-- The first `n` columns of a sprite row cover column `px`. -/
def rowCovers (x0 : Nat) (b : Byte) (n : Nat) (px : Fin 64) : Prop :=
  ∃ c, c < n ∧ spriteBit b c = true ∧ px.val = (x0 + c) % 64

/-- A sprite of rows `bs` at `(x0, y0)` covers the cell in column `px` of row `py` (R72). -/
def rowsCover (x0 y0 : Nat) (bs : List Byte) (px : Fin 64) (py : Fin 32) : Prop :=
  ∃ r c, r < bs.length ∧ c < 8 ∧ spriteBit (bs.getD r 0#8) c = true ∧ px.val = (x0 + c) % 64 ∧ py.val = (y0 + r) % 32

theorem rowCovers_succ (x0 : Nat) (b : Byte) (n : Nat) (px : Fin 64) :
    rowCovers x0 b (n + 1) px ↔ rowCovers x0 b n px ∨ (spriteBit b n = true ∧ px = wrapX (x0 + n)) := by
  constructor
  · rintro ⟨c, hc, hb, hx⟩
    rcases Nat.lt_succ_iff_lt_or_eq.1 hc with h | h
    · exact .inl ⟨c, h, hb, hx⟩
    · subst h
      exact .inr ⟨hb, Fin.ext hx⟩
  · rintro (⟨c, hc, h⟩ | ⟨hb, rfl⟩)
    · exact ⟨c, by omega, h⟩
    · exact ⟨n, by omega, hb, rfl⟩

theorem rowsCover_cons (x0 y0 : Nat) (b : Byte) (bs : List Byte) (px : Fin 64) (py : Fin 32) :
    rowsCover x0 y0 (b :: bs) px py ↔ (py = wrapY y0 ∧ rowCovers x0 b 8 px) ∨ rowsCover x0 (y0 + 1) bs px py := by
  constructor
  · rintro ⟨r, c, hr, hc, hs, hx, hy⟩
    cases r with
    | zero => exact .inl ⟨Fin.ext hy, c, hc, by simpa using hs, hx⟩
    | succ r => exact .inr ⟨r, c, by simpa using hr, hc, by simpa using hs, hx, by rw [hy]; congr 1; omega⟩
  · rintro (⟨hy, c, hc, hs, hx⟩ | ⟨r, c, hr, hc, hs, hx, hy⟩)
    · exact ⟨0, c, by simp, hc, by simpa using hs, hx, by rw [hy]; rfl⟩
    · exact ⟨r + 1, c, by simpa using hr, hc, by simpa using hs, hx, by rw [hy]; congr 1; omega⟩

/-! ## Drawing -/

open Classical in
/-- Up to eight columns of one sprite row toggle exactly the cells they cover, and `hit` says whether one was set. -/
theorem drawColumns_spec (x0 : Nat) (y : Fin 32) (b : Byte) (d e : DrawResult) {n : Nat} (hn : n ≤ 8)
    (he : (List.range n).foldl (fun d c => if spriteBit b c then toggleCell (wrapX (x0 + c)) y d else d) d = e) :
    (∀ px py, cell e.disp px py = (cell d.disp px py ^^ decide (py = y ∧ rowCovers x0 b n px))) ∧
      (e.hit = true ↔ d.hit = true ∨ ∃ qx, cell d.disp qx y = true ∧ rowCovers x0 b n qx) := by
  induction n generalizing e with
  | zero =>
    subst he
    simp [rowCovers]
  | succ n ih =>
    rw [List.range_succ, List.foldl_append, List.foldl_cons, List.foldl_nil] at he
    have ih := ih _ (by omega) rfl
    generalize (List.range n).foldl _ d = f at he ih
    obtain ⟨hcell, hhit⟩ := ih
    by_cases hb : spriteBit b n = true
    · rw [if_pos hb] at he
      subst he
      have hnew : ¬ rowCovers x0 b n (wrapX (x0 + n)) := by
        rintro ⟨c, hc, -, hx⟩
        rw [wrapX_val] at hx
        omega
      refine ⟨fun px py => ?_, ?_⟩
      · rw [cell_toggleCell, hcell, Bool.xor_assoc]
        congr 1
        by_cases hy : py = y
        · by_cases hx : px = wrapX (x0 + n)
          · subst hx
            simp [rowCovers_succ, hy, hb, hnew]
          · simp [rowCovers_succ, hy, hx]
        · simp [hy]
      · have hold : cell f.disp (wrapX (x0 + n)) y = cell d.disp (wrapX (x0 + n)) y := by simp [hcell, hnew]
        simp only [toggleCell, Bool.or_eq_true, hold, hhit, rowCovers_succ, hb, true_and]
        constructor
        · rintro ((h | ⟨qx, h, h'⟩) | h)
          · exact .inl h
          · exact .inr ⟨qx, h, .inl h'⟩
          · exact .inr ⟨_, h, .inr rfl⟩
        · rintro (h | ⟨qx, h, h' | rfl⟩)
          · exact .inl (.inl h)
          · exact .inl (.inr ⟨qx, h, h'⟩)
          · exact .inr h
    · rw [if_neg hb] at he
      subst he
      simp only [rowCovers_succ, hb, Bool.false_eq_true, false_and, or_false]
      exact ⟨hcell, hhit⟩

open Classical in
/-- Up to 32 sprite rows toggle exactly the cells they cover, and `hit` says whether one was set. -/
theorem drawRows_spec (x0 y0 : Nat) (bs : List Byte) (d : DrawResult) (hlen : bs.length ≤ 32) :
    (∀ px py, cell (drawRows x0 y0 bs d).disp px py = (cell d.disp px py ^^ decide (rowsCover x0 y0 bs px py))) ∧
      ((drawRows x0 y0 bs d).hit = true ↔
        d.hit = true ∨ ∃ qx qy, cell d.disp qx qy = true ∧ rowsCover x0 y0 bs qx qy) := by
  induction bs generalizing y0 d with
  | nil => simp [drawRows, rowsCover]
  | cons b bs ih =>
    rw [List.length_cons] at hlen
    obtain ⟨hcell, hhit⟩ := drawColumns_spec x0 (wrapY y0) b d (drawRow x0 (wrapY y0) b d) (Nat.le_refl 8) rfl
    obtain ⟨hcell', hhit'⟩ := ih (y0 + 1) (drawRow x0 (wrapY y0) b d) (by omega)
    have hother : ∀ px py, rowsCover x0 (y0 + 1) bs px py → py ≠ wrapY y0 := by
      rintro px py ⟨r, c, hr, -, -, -, hy⟩ rfl
      rw [wrapY_val] at hy
      omega
    refine ⟨fun px py => ?_, ?_⟩
    · rw [drawRows, hcell', hcell, Bool.xor_assoc]
      congr 1
      by_cases h : rowsCover x0 (y0 + 1) bs px py
      · simp [rowsCover_cons, h, hother px py h]
      · simp [rowsCover_cons, h]
    · rw [drawRows, hhit', hhit]
      constructor
      · rintro ((h | ⟨qx, h, h'⟩) | ⟨qx, qy, h, h'⟩)
        · exact .inl h
        · exact .inr ⟨qx, _, h, (rowsCover_cons ..).2 (.inl ⟨rfl, h'⟩)⟩
        · rw [hcell] at h
          exact .inr ⟨qx, qy, by simpa [hother qx qy h'] using h, (rowsCover_cons ..).2 (.inr h')⟩
      · rintro (h | ⟨qx, qy, h, h'⟩)
        · exact .inl (.inl h)
        · rcases (rowsCover_cons ..).1 h' with ⟨hy, hx⟩ | h'
          · exact .inl (.inr ⟨qx, hy ▸ h, hx⟩)
          · refine .inr ⟨qx, qy, ?_, h'⟩
            rw [hcell]
            simpa [hother qx qy h'] using h

end Sys2Proof.Machine
end

