-- ==== Sys2Proof/Laws/Exec.lean ====
section
/-! SUPPORT. One law for each way an instruction that can raise a cause ends, and what every instruction leaves alone. -/

namespace Sys2Proof.Machine

/-! ## Return and call (R49, R52) -/

theorem execRet_entry {s : State} {j : Fin 16} (h : s.SP.toNat = j.val + 1) :
    execRet s = .next ((s.setSP (s.SP - 1#8)).setPc s.stack[j.val]) := by
  rw [execRet, pop_entry h]; rfl

theorem execRet_empty {s : State} (h : s.SP = 0#8) : execRet s = .next (s.setStatus (.halted .stackUnderflow)) := by
  rw [execRet, pop_empty h]; rfl

theorem execRet_next {s t : State} (h : execRet s = .next t) :
    (∃ j : Fin 16, s.SP.toNat = j.val + 1 ∧ t = (s.setSP (s.SP - 1#8)).setPc s.stack[j.val]) ∨
      (s.SP = 0#8 ∧ t = s.setStatus (.halted .stackUnderflow)) := by
  by_cases h0 : s.SP = 0#8
  · rw [execRet_empty h0] at h
    injection h with h
    exact .inr ⟨h0, h.symm⟩
  · by_cases hbig : 16 < s.SP.toNat
    · rw [execRet, pop_illegal hbig] at h
      cases h
    · have hpos : s.SP.toNat ≠ 0 := fun hz => h0 (BitVec.eq_of_toNat_eq (by simpa using hz))
      have hj : s.SP.toNat = (⟨s.SP.toNat - 1, by omega⟩ : Fin 16).val + 1 := by simp; omega
      have := execRet_entry hj
      rw [this] at h
      injection h with h
      exact .inl ⟨_, hj, h.symm⟩

theorem execCall_room {s : State} (nnn : Addr12) {j : Fin 16} (h : s.SP.toNat = j.val) :
    execCall nnn s = .next (((s.setStack j (s.pc + 2#16)).setSP (s.SP + 1#8)).setPc (zext16 nnn)) := by
  rw [execCall, push_room _ h]; rfl

theorem execCall_full {s : State} (nnn : Addr12) (h : s.SP.toNat = 16) :
    execCall nnn s = .next (s.setStatus (.halted .stackOverflow)) := by
  rw [execCall, push_full _ h]; rfl

theorem execCall_next {s t : State} {nnn : Addr12} (h : execCall nnn s = .next t) :
    (∃ j : Fin 16, s.SP.toNat = j.val ∧
        t = ((s.setStack j (s.pc + 2#16)).setSP (s.SP + 1#8)).setPc (zext16 nnn)) ∨
      (s.SP.toNat = 16 ∧ t = s.setStatus (.halted .stackOverflow)) := by
  rcases Nat.lt_trichotomy s.SP.toNat 16 with hlt | heq | hgt
  · have hj : s.SP.toNat = (⟨s.SP.toNat, hlt⟩ : Fin 16).val := rfl
    rw [execCall_room nnn hj] at h
    injection h with h
    exact .inl ⟨_, hj, h.symm⟩
  · rw [execCall_full nnn heq] at h
    injection h with h
    exact .inr ⟨heq, h.symm⟩
  · rw [execCall, push_illegal _ hgt] at h
    cases h

/-! ## The instructions that access memory (R74, R83, R84, R85) -/

theorem execDrw_ok (x y : Reg) {n : Nat} {s : State} (h : n = 0 ∨ s.I.toNat + n ≤ 4096) :
    execDrw x y n s =
      .next ((s.setDisp (drawRows (reg s x).toNat (reg s y).toNat (blockAt s.mem s.I.toNat n) ⟨s.disp, false⟩).disp).setV
        VF (boolByte (drawRows (reg s x).toNat (reg s y).toNat (blockAt s.mem s.I.toNat n) ⟨s.disp, false⟩).hit)).advancePc := by
  have hr : readBytes s.mem s.I.toNat n = .ok (blockAt s.mem s.I.toNat n) := by
    rcases h with h | h
    · subst h; rfl
    · exact readBytes_ok h
  rw [execDrw, hr]; rfl

theorem execDrw_fault (x y : Reg) {n : Nat} {s : State} (hn : 0 < n) (h : 4096 < s.I.toNat + n) :
    execDrw x y n s = .next (s.setStatus (.halted (.addressFault (max s.I.toNat 4096)))) := by
  rw [execDrw, readBytes_fault hn h]; rfl

theorem execLdB_ok (x : Reg) {s : State} (h : s.I.toNat + 3 ≤ 4096) :
    execLdB x s = .next (s.setMem (storeImage s.mem s.I.toNat (bcdDigits (reg s x)))).advancePc := by
  rw [execLdB, writeBytes_ok (by simpa using h)]; rfl

theorem execLdB_fault (x : Reg) {s : State} (h : 4096 < s.I.toNat + 3) :
    execLdB x s = .next (s.setStatus (.halted (.addressFault (max s.I.toNat 4096)))) := by
  rw [execLdB, writeBytes_fault (by simp) (by simpa using h)]; rfl

theorem execLdMemStore_ok (x : Reg) {s : State} (h : s.I.toNat + x.val < 4096) :
    execLdMemStore x s =
      .next ((s.setMem (storeImage s.mem s.I.toNat (regsThrough s x))).setI (indexAfterBlock s x)).advancePc := by
  rw [execLdMemStore, writeBytes_ok (by rw [regsThrough_length]; omega)]; rfl

theorem execLdMemStore_fault (x : Reg) {s : State} (h : 4096 ≤ s.I.toNat + x.val) :
    execLdMemStore x s = .next (s.setStatus (.halted (.addressFault (max s.I.toNat 4096)))) := by
  rw [execLdMemStore, writeBytes_fault (by simp) (by rw [regsThrough_length]; omega)]; rfl

theorem execLdMemLoad_ok (x : Reg) {s : State} (h : s.I.toNat + x.val < 4096) :
    execLdMemLoad x s =
      .next ((s.setRegs (loadRegs (blockAt s.mem s.I.toNat (x.val + 1)) s.V)).setI (indexAfterBlock s x)).advancePc := by
  rw [execLdMemLoad, readBytes_ok (by omega)]; rfl

theorem execLdMemLoad_fault (x : Reg) {s : State} (h : 4096 ≤ s.I.toNat + x.val) :
    execLdMemLoad x s = .next (s.setStatus (.halted (.addressFault (max s.I.toNat 4096)))) := by
  rw [execLdMemLoad, readBytes_fault (by omega) (by omega)]; rfl

/-! ## Every instruction -/

/-- An instruction's end in a state that differs from the one it began in by more than the status leaves the fields no
instruction writes alone. -/
theorem exec_keeps_host_fields {i : Instr} {s t : State} (h : exec i s = .next t) :
    (∃ c, t = s.setStatus (.halted c)) ∨
      (t.status = s.status ∧ t.key = s.key ∧ t.diag = s.diag ∧ t.colours = s.colours ∧
        t.schedule = s.schedule ∧ t.tail = s.tail) := by
  have done : ∀ {u : State}, Host.Outcome.next (φ := Fault) (ρ := Refusal) u = .next t →
      (u.status = s.status ∧ u.key = s.key ∧ u.diag = s.diag ∧ u.colours = s.colours ∧
        u.schedule = s.schedule ∧ u.tail = s.tail) →
      (∃ c, t = s.setStatus (.halted c)) ∨
        (t.status = s.status ∧ t.key = s.key ∧ t.diag = s.diag ∧ t.colours = s.colours ∧
        t.schedule = s.schedule ∧ t.tail = s.tail) := by
    intro u hu hk
    injection hu with hu
    exact .inr (hu ▸ hk)
  cases i with
  | ret =>
    rcases execRet_next h with ⟨j, -, rfl⟩ | ⟨-, rfl⟩
    · exact .inr (by simp)
    · exact .inl ⟨_, rfl⟩
  | call nnn =>
    rcases execCall_next h with ⟨j, -, rfl⟩ | ⟨-, rfl⟩
    · exact .inr (by simp)
    · exact .inl ⟨_, rfl⟩
  | drw x y n =>
    by_cases hn : n = 0 ∨ s.I.toNat + n ≤ 4096
    · exact done ((execDrw_ok x y hn).symm.trans h) (by simp)
    · have h' := (execDrw_fault x y (n := n) (s := s) (by omega) (by omega)).symm.trans h
      injection h' with h'
      exact .inl ⟨_, h'.symm⟩
  | ldB x =>
    by_cases hn : s.I.toNat + 3 ≤ 4096
    · exact done ((execLdB_ok x hn).symm.trans h) (by simp)
    · have h' := (execLdB_fault x (s := s) (by omega)).symm.trans h
      injection h' with h'
      exact .inl ⟨_, h'.symm⟩
  | ldMemStore x =>
    by_cases hn : s.I.toNat + x.val < 4096
    · exact done ((execLdMemStore_ok x hn).symm.trans h) (by simp)
    · have h' := (execLdMemStore_fault x (s := s) (by omega)).symm.trans h
      injection h' with h'
      exact .inl ⟨_, h'.symm⟩
  | ldMemLoad x =>
    by_cases hn : s.I.toNat + x.val < 4096
    · exact done ((execLdMemLoad_ok x hn).symm.trans h) (by simp)
    · have h' := (execLdMemLoad_fault x (s := s) (by omega)).symm.trans h
      injection h' with h'
      exact .inl ⟨_, h'.symm⟩
  | ldVxK x =>
    simp only [exec, execLdVxK] at h
    split at h
    · exact done h (by simp)
    · exact done h (by simp)
    · split at h
      · exact done h (by simp)
      · exact done h (by simp)
  | cls => exact done h (by simp)
  | jp nnn => exact done h (by simp)
  | jpV0 nnn => exact done h (by simp)
  | seImm x kk => exact done h (by simp)
  | sneImm x kk => exact done h (by simp)
  | seReg x y => exact done h (by simp)
  | sneReg x y => exact done h (by simp)
  | ldImm x kk => exact done h (by simp)
  | addImm x kk => exact done h (by simp)
  | ldReg x y => exact done h (by simp)
  | orReg x y => exact done h (by simp [setResultFlag])
  | andReg x y => exact done h (by simp [setResultFlag])
  | xorReg x y => exact done h (by simp [setResultFlag])
  | addReg x y => exact done h (by simp [setResultFlag])
  | sub x y => exact done h (by simp [setResultFlag])
  | shr x y => exact done h (by simp [setResultFlag])
  | subn x y => exact done h (by simp [setResultFlag])
  | shl x y => exact done h (by simp [setResultFlag])
  | ldI nnn => exact done h (by simp)
  | addI x => exact done h (by simp)
  | rnd x kk => exact done h (by simp)
  | skp x => exact done h (by simp)
  | sknp x => exact done h (by simp)
  | ldVxDt x => exact done h (by simp)
  | ldDtVx x => exact done h (by simp)
  | ldStVx x => exact done h (by simp)
  | ldF x => exact done h (by simp)

end Sys2Proof.Machine
end

