-- ==== Sys2Proof/Laws/Fetch.lean ====
section
/-! SUPPORT. How an Advance begins: what a running machine does with the word it fetches (30_encoding.md R48), and that
`withFetchWord` places the very instruction the next step runs. -/

namespace Sys2Proof.Machine

theorem advance_running {s : State} (h : s.status = .running) : advance s = advanceRunning s := by
  rw [advance, whileRunning, h]

theorem advanceRunning_instr {s : State} {w : Word} {i : Instr} (hf : fetch s.mem s.pc = .ok w)
    (hd : decode w = some i) : advanceRunning s = exec i s := by
  rw [advanceRunning, hf]
  simp only [hd]

theorem advanceRunning_unknown {s : State} {w : Word} (hf : fetch s.mem s.pc = .ok w) (hd : decode w = none) :
    advanceRunning s = reportUnknown w s := by
  rw [advanceRunning, hf]
  simp only [hd]

theorem advanceRunning_fault {s : State} (h : 4096 ≤ s.pc.toNat + 1) :
    advanceRunning s = .next (s.setStatus (.halted (.addressFault (max s.pc.toNat 4096)))) := by
  rw [advanceRunning, fetch_fault h]; rfl

/-- The three ways an Advance of a running machine goes (R48). -/
theorem advanceRunning_cases (s : State) :
    (4096 ≤ s.pc.toNat + 1 ∧
        advanceRunning s = .next (s.setStatus (.halted (.addressFault (max s.pc.toNat 4096))))) ∨
      (s.pc.toNat + 1 < 4096 ∧ ∃ w, fetch s.mem s.pc = .ok w ∧
        ((decode w = none ∧ advanceRunning s = .next (s.appendDiag ⟨s.pc, w⟩).advancePc) ∨
          ∃ i, decode w = some i ∧ advanceRunning s = exec i s)) := by
  by_cases h : 4096 ≤ s.pc.toNat + 1
  · exact .inl ⟨h, advanceRunning_fault h⟩
  · have h' : s.pc.toNat + 1 < 4096 := by omega
    refine .inr ⟨h', _, fetch_ok h', ?_⟩
    cases hd : decode (wordOfBytes (s.mem.read s.pc.toNat) (s.mem.read (s.pc.toNat + 1))) with
    | none => exact .inl ⟨rfl, advanceRunning_unknown (fetch_ok h') hd⟩
    | some i => exact .inr ⟨i, rfl, advanceRunning_instr (fetch_ok h') hd⟩

/-! ## Placing an instruction for the next step -/

theorem fetchSlot_room (s : State) : s.fetchSlot.toNat + 1 < 4096 := by
  unfold State.fetchSlot
  split
  · assumption
  · decide

theorem withFetchWord_fetch {s : State} (hm : s.mem.wf) (nbits w : Nat) :
    fetch (s.withFetchWord nbits w).mem (s.withFetchWord nbits w).pc = .ok (BitVec.ofNat 16 (w % 2 ^ nbits)) := by
  have hroom := fetchSlot_room s
  have hlen : s.fetchSlot.toNat + (tableBytes nbits w).length ≤ 4096 := by
    show s.fetchSlot.toNat + 2 ≤ 4096
    omega
  have h0 := storeImage_read hm hlen s.fetchSlot.toNat
  have h1 := storeImage_read hm hlen (s.fetchSlot.toNat + 1)
  have hl : (tableBytes nbits w).length = 2 := rfl
  rw [hl] at h0 h1
  rw [if_pos (by omega)] at h0 h1
  have hf := fetch_ok (m := storeImage s.mem s.fetchSlot.toNat (tableBytes nbits w)) hroom
  rw [h0, h1] at hf
  simpa [State.withFetchWord, tableBytes] using hf

/-- The next step after an instruction is placed runs that instruction. -/
theorem step_withFetchWord {s : State} (hm : s.mem.wf) {nbits w : Nat} {i : Instr}
    (hd : decode (BitVec.ofNat 16 (w % 2 ^ nbits)) = some i) :
    step (s.withFetchWord nbits w) = exec i (s.withFetchWord nbits w) := by
  have hs : step (s.withFetchWord nbits w) = advance (s.withFetchWord nbits w) := rfl
  rw [hs, advance_running rfl, advanceRunning_instr (withFetchWord_fetch hm nbits w) hd]

end Sys2Proof.Machine
end

