-- ==== Sys2Proof/Laws/PerInstr.lean ====
section
/-! SUPPORT. The per-instruction family EncodesItsRow: the encoder's word of every instruction has the fixed bits of that
instruction's row in spec/opcode_table.json (30_encoding.md R44), whatever its operands. -/

namespace Sys2Proof.Laws.EncodesItsRow

open Sys2Proof

/-- The encoder's word matches the instruction's own row of the opcode table. -/
def Statement (i : Instr) : Prop := encode i &&& rowMask i = rowMatch i

/-! What each mask of the table keeps of each packing. -/

theorem packNNN_family (op : BitVec 4) (nnn : Addr12) : packNNN op nnn &&& 0xF000#16 = packNNN op 0#12 := by
  apply BitVec.eq_of_getLsbD_eq
  intro i hi
  interval_cases i <;> simp [getLsbD_packNNN, -BitVec.getLsbD_eq_getElem]

theorem packXKK_family (op : BitVec 4) (x : Reg) (kk : Byte) :
    packXKK op x kk &&& 0xF000#16 = packXKK op 0 0#8 := by
  apply BitVec.eq_of_getLsbD_eq
  intro i hi
  interval_cases i <;> simp [getLsbD_packXKK, regField, -BitVec.getLsbD_eq_getElem]

theorem packXKK_selector (op : BitVec 4) (x : Reg) (kk : Byte) :
    packXKK op x kk &&& 0xF0FF#16 = packXKK op 0 kk := by
  apply BitVec.eq_of_getLsbD_eq
  intro i hi
  interval_cases i <;> simp [getLsbD_packXKK, regField, -BitVec.getLsbD_eq_getElem]

theorem packXYN_family (op : BitVec 4) (x y : Reg) (n : BitVec 4) :
    packXYN op x y n &&& 0xF000#16 = packXYN op 0 0 0#4 := by
  apply BitVec.eq_of_getLsbD_eq
  intro i hi
  interval_cases i <;> simp [getLsbD_packXYN, regField, -BitVec.getLsbD_eq_getElem]

theorem packXYN_selector (op : BitVec 4) (x y : Reg) (n : BitVec 4) :
    packXYN op x y n &&& 0xF00F#16 = packXYN op 0 0 n := by
  apply BitVec.eq_of_getLsbD_eq
  intro i hi
  interval_cases i <;> simp [getLsbD_packXYN, regField, -BitVec.getLsbD_eq_getElem]

/-! One lemma per instruction. -/

theorem cls : Statement .cls := rfl
theorem ret : Statement .ret := rfl
theorem jp (nnn : Addr12) : Statement (.jp nnn) := (packNNN_family _ _).trans rfl
theorem jpV0 (nnn : Addr12) : Statement (.jpV0 nnn) := (packNNN_family _ _).trans rfl
theorem call (nnn : Addr12) : Statement (.call nnn) := (packNNN_family _ _).trans rfl
theorem seImm (x : Reg) (kk : Byte) : Statement (.seImm x kk) := (packXKK_family _ _ _).trans rfl
theorem sneImm (x : Reg) (kk : Byte) : Statement (.sneImm x kk) := (packXKK_family _ _ _).trans rfl
theorem seReg (x : Reg) (y : Reg) : Statement (.seReg x y) := (packXYN_selector _ _ _ _).trans rfl
theorem sneReg (x : Reg) (y : Reg) : Statement (.sneReg x y) := (packXYN_selector _ _ _ _).trans rfl
theorem ldImm (x : Reg) (kk : Byte) : Statement (.ldImm x kk) := (packXKK_family _ _ _).trans rfl
theorem addImm (x : Reg) (kk : Byte) : Statement (.addImm x kk) := (packXKK_family _ _ _).trans rfl
theorem ldReg (x : Reg) (y : Reg) : Statement (.ldReg x y) := (packXYN_selector _ _ _ _).trans rfl
theorem orReg (x : Reg) (y : Reg) : Statement (.orReg x y) := (packXYN_selector _ _ _ _).trans rfl
theorem andReg (x : Reg) (y : Reg) : Statement (.andReg x y) := (packXYN_selector _ _ _ _).trans rfl
theorem xorReg (x : Reg) (y : Reg) : Statement (.xorReg x y) := (packXYN_selector _ _ _ _).trans rfl
theorem addReg (x : Reg) (y : Reg) : Statement (.addReg x y) := (packXYN_selector _ _ _ _).trans rfl
theorem sub (x : Reg) (y : Reg) : Statement (.sub x y) := (packXYN_selector _ _ _ _).trans rfl
theorem shr (x : Reg) (y : Reg) : Statement (.shr x y) := (packXYN_selector _ _ _ _).trans rfl
theorem subn (x : Reg) (y : Reg) : Statement (.subn x y) := (packXYN_selector _ _ _ _).trans rfl
theorem shl (x : Reg) (y : Reg) : Statement (.shl x y) := (packXYN_selector _ _ _ _).trans rfl
theorem ldI (nnn : Addr12) : Statement (.ldI nnn) := (packNNN_family _ _).trans rfl
theorem addI (x : Reg) : Statement (.addI x) := (packXKK_selector _ _ _).trans rfl
theorem rnd (x : Reg) (kk : Byte) : Statement (.rnd x kk) := (packXKK_family _ _ _).trans rfl
theorem drw (x : Reg) (y : Reg) (n : Nat) : Statement (.drw x y n) := (packXYN_family _ _ _ _).trans rfl
theorem skp (x : Reg) : Statement (.skp x) := (packXKK_selector _ _ _).trans rfl
theorem sknp (x : Reg) : Statement (.sknp x) := (packXKK_selector _ _ _).trans rfl
theorem ldVxDt (x : Reg) : Statement (.ldVxDt x) := (packXKK_selector _ _ _).trans rfl
theorem ldDtVx (x : Reg) : Statement (.ldDtVx x) := (packXKK_selector _ _ _).trans rfl
theorem ldStVx (x : Reg) : Statement (.ldStVx x) := (packXKK_selector _ _ _).trans rfl
theorem ldVxK (x : Reg) : Statement (.ldVxK x) := (packXKK_selector _ _ _).trans rfl
theorem ldF (x : Reg) : Statement (.ldF x) := (packXKK_selector _ _ _).trans rfl
theorem ldB (x : Reg) : Statement (.ldB x) := (packXKK_selector _ _ _).trans rfl
theorem ldMemStore (x : Reg) : Statement (.ldMemStore x) := (packXKK_selector _ _ _).trans rfl
theorem ldMemLoad (x : Reg) : Statement (.ldMemLoad x) := (packXKK_selector _ _ _).trans rfl

end Sys2Proof.Laws.EncodesItsRow
end

