-- ==== Sys2Proof/Laws/Results.lean ====
section
/-! SUPPORT. The shared ends of the register instructions, in the words of Safety.lean: `writeReg` writes only its
register, `writeRegFlag` only its register and, after it, VF. -/

namespace Sys2Proof.Machine

theorem writesOnly_setV (s : State) (x : Reg) (r : Byte) : WritesOnly s (s.setV x r).advancePc x r :=
  ⟨by simp, fun k hk => by rw [reg_advancePc, reg_setV_ne s r hk], rfl, rfl⟩

theorem writesWithFlag_setResultFlag (s : State) (x : Reg) (r f : Byte) :
    WritesWithFlag s (setResultFlag s x r f).advancePc x r f :=
  ⟨fun h => by simp [reg_setResultFlag, h], by simp [reg_setResultFlag],
    fun k h h' => by simp [reg_setResultFlag, h, h'], rfl, rfl⟩

/-- The cells a sprite read from memory covers, in the words of Safety.lean. -/
theorem rowsCover_blockAt (m : Memory) (a x0 y0 n : Nat) (px : Fin 64) (py : Fin 32) :
    rowsCover x0 y0 (blockAt m a n) px py ↔ spriteCovers m a x0 y0 n px py := by
  constructor
  · rintro ⟨r, c, hr, hc, hs, h⟩
    rw [blockAt_length] at hr
    rw [blockAt_getD _ _ hr] at hs
    exact ⟨r, c, hr, hc, hs, h⟩
  · rintro ⟨r, c, hr, hc, hs, h⟩
    exact ⟨r, c, by rwa [blockAt_length], hc, by rwa [blockAt_getD _ _ hr], h⟩

end Sys2Proof.Machine
end

