-- ==== Sys2Proof/Laws/Step.lean ====
section
/-! SUPPORT. Everything an Advance, a step and the other host operations can do, said once (30_encoding.md R48,
60_exceptions.md R94 to R98). -/

namespace Sys2Proof.Machine

/-- Everything an Advance that has a next state did: it took the fetch fault, reported an unknown word, or executed the
instruction of the word. -/
theorem advance_cases {s t : State} (h : advance s = .next t) :
    s.status = .running ∧
      ((4096 ≤ s.pc.toNat + 1 ∧ t = s.setStatus (.halted (.addressFault (max s.pc.toNat 4096)))) ∨
        (s.pc.toNat + 1 < 4096 ∧ ∃ w, fetch s.mem s.pc = .ok w ∧
          ((decode w = none ∧ t = (s.appendDiag ⟨s.pc, w⟩).advancePc) ∨
            ∃ i, decode w = some i ∧ exec i s = .next t))) := by
  have hr : s.status = .running := by
    simp only [advance, whileRunning] at h
    split at h
    · assumption
    · cases h
  rw [advance_running hr] at h
  refine ⟨hr, ?_⟩
  rcases advanceRunning_cases s with ⟨h1, h2⟩ | ⟨h1, w, hf, ⟨hd, h2⟩ | ⟨i, hd, h2⟩⟩
  · rw [h2] at h
    injection h with h
    exact .inl ⟨h1, h.symm⟩
  · rw [h2] at h
    injection h with h
    exact .inr ⟨h1, w, hf, .inl ⟨hd, h.symm⟩⟩
  · exact .inr ⟨h1, w, hf, .inr ⟨i, hd, h2 ▸ h⟩⟩

/-! The three cases of the host's order. -/

theorem nextOp_cons {s : State} {op : HostOp} {rest : List HostOp} (h : s.schedule = op :: rest) : s.nextOp = op := by
  rw [State.nextOp, h]

theorem takeOp_cons {s : State} {op : HostOp} {rest : List HostOp} (h : s.schedule = op :: rest) :
    s.takeOp = s.setSchedule rest := by
  rw [State.takeOp, h]

theorem nextOp_open {s : State} {n : Nat} (h : s.schedule = []) (ht : s.tail = .openFrom n) :
    s.nextOp = Config.hostOrder n := by
  simp only [State.nextOp, h, ht]

theorem takeOp_open {s : State} {n : Nat} (h : s.schedule = []) (ht : s.tail = .openFrom n) :
    s.takeOp = s.setTail (.openFrom (n + 1)) := by
  simp only [State.takeOp, h, ht]

theorem nextOp_advances {s : State} (h : s.schedule = []) (ht : s.tail = .advances) : s.nextOp = .advance := by
  simp only [State.nextOp, h, ht]

theorem takeOp_advances {s : State} (h : s.schedule = []) (ht : s.tail = .advances) : s.takeOp = s := by
  simp only [State.takeOp, h, ht]

/-! Taking an operation off the host's order changes that order alone. -/

theorem takeOp_eq (s : State) : s.takeOp = (s.setSchedule s.takeOp.schedule).setTail s.takeOp.tail := by
  unfold State.takeOp
  split
  · rfl
  · split <;> rfl

@[simp] theorem takeOp_V (s : State) : s.takeOp.V = s.V := by rw [takeOp_eq]; rfl
@[simp] theorem takeOp_pc (s : State) : s.takeOp.pc = s.pc := by rw [takeOp_eq]; rfl
@[simp] theorem takeOp_I (s : State) : s.takeOp.I = s.I := by rw [takeOp_eq]; rfl
@[simp] theorem takeOp_SP (s : State) : s.takeOp.SP = s.SP := by rw [takeOp_eq]; rfl
@[simp] theorem takeOp_stack (s : State) : s.takeOp.stack = s.stack := by rw [takeOp_eq]; rfl
@[simp] theorem takeOp_DT (s : State) : s.takeOp.DT = s.DT := by rw [takeOp_eq]; rfl
@[simp] theorem takeOp_ST (s : State) : s.takeOp.ST = s.ST := by rw [takeOp_eq]; rfl
@[simp] theorem takeOp_key (s : State) : s.takeOp.key = s.key := by rw [takeOp_eq]; rfl
@[simp] theorem takeOp_disp (s : State) : s.takeOp.disp = s.disp := by rw [takeOp_eq]; rfl
@[simp] theorem takeOp_mem (s : State) : s.takeOp.mem = s.mem := by rw [takeOp_eq]; rfl
@[simp] theorem takeOp_wait (s : State) : s.takeOp.wait = s.wait := by rw [takeOp_eq]; rfl
@[simp] theorem takeOp_status (s : State) : s.takeOp.status = s.status := by rw [takeOp_eq]; rfl
@[simp] theorem takeOp_diag (s : State) : s.takeOp.diag = s.diag := by rw [takeOp_eq]; rfl
@[simp] theorem takeOp_colours (s : State) : s.takeOp.colours = s.colours := by rw [takeOp_eq]; rfl
@[simp] theorem takeOp_draws (s : State) : s.takeOp.draws = s.draws := by rw [takeOp_eq]; rfl

@[simp] theorem reg_takeOp (s : State) (r : Reg) : reg s.takeOp r = reg s r := reg_congr (takeOp_V s) r

theorem takeOp_inv (s : State) : s.takeOp.inv ↔ s.inv := by simp [State.inv]

theorem takeOp_pcBounded (s : State) : s.takeOp.pcBounded ↔ s.pcBounded := by simp [State.pcBounded]

theorem takeOp_waitsAtFx0A (s : State) : s.takeOp.waitsAtFx0A ↔ s.waitsAtFx0A := by
  simp [State.waitsAtFx0A, State.waiting]

/-- A step is an Advance or another host operation, in the state without it. -/
theorem step_cases {s t : State} (h : step s = .next t) :
    advance s.takeOp = .next t ∨ ∃ op, op ≠ .advance ∧ applyOp op s.takeOp = .next t := by
  by_cases ho : s.nextOp = .advance
  · rw [step, ho] at h
    exact .inl h
  · exact .inr ⟨_, ho, h⟩

/-- Everything a host operation other than Advance can do (R95 to R98). -/
theorem applyOp_cases {op : HostOp} {s t : State} (ho : op ≠ .advance) (h : applyOp op s = .next t) :
    (op = .render ∧ t = s) ∨
      (s.status = .running ∧
        ((op = .tick ∧ t = (s.setDT (decrement s.DT)).setST (decrement s.ST)) ∨
          (∃ k p, op = .keyEvent k p ∧ t = (s.setKey k p).setWait (waitAfterKey k p s.wait)) ∨
          ∃ c, op = .setColours c ∧ s.colours = none ∧ t = s.setColours c)) := by
  cases op with
  | advance => exact absurd rfl ho
  | render =>
    injection h with h
    exact .inl ⟨rfl, h.symm⟩
  | tick =>
    simp only [applyOp, tick, whileRunning] at h
    split at h
    · rename_i hr
      injection h with h
      exact .inr ⟨hr, .inl ⟨rfl, h.symm⟩⟩
    · cases h
  | keyEvent k p =>
    simp only [applyOp, keyEvent, whileRunning] at h
    split at h
    · rename_i hr
      injection h with h
      exact .inr ⟨hr, .inr (.inl ⟨k, p, rfl, h.symm⟩)⟩
    · cases h
  | setColours c =>
    simp only [applyOp, setColours, whileRunning] at h
    split at h
    · rename_i hr
      split at h
      · rename_i hc
        injection h with h
        exact .inr ⟨hr, .inr (.inr ⟨c, rfl, hc, h.symm⟩)⟩
      · cases h
    · cases h

end Sys2Proof.Machine
end

