-- ==== Sys2Proof/Tests/Slice0.lean ====
section
/-! SUPPORT. Tests on fixed values. Expected results come from the spec: the examples of the instructions' own rules and
the vectors of 95_test_vectors.md (named in the comments). The last part shows, for each obligation with hypotheses, a
concrete state and operands that meet them. -/

namespace Sys2Proof.Tests

open Sys2Proof Sys2Proof.Machine

/-! ## Well-formed terms -/

/-- The one check of `Instr.wf`: a row count above 15 has no encoding (R43). -/
theorem test_wf_refuses_sixteen_rows : (Instr.drw 0 0 16).wf = false := by decide

theorem test_wf_accepts_fifteen_rows : (Instr.drw 0 0 15).wf = true := by decide

/-! ## Decoding: one word of every row, from the patterns of R44 -/

theorem test_decode_display :
    decode 0x00E0#16 = some .cls ∧ decode 0xD125#16 = some (.drw 1 2 5) := by decide

theorem test_decode_control :
    decode 0x00EE#16 = some .ret ∧ decode 0x1ABC#16 = some (.jp 0xABC#12) ∧ decode 0xB300#16 = some (.jpV0 0x300#12) ∧
      decode 0x2300#16 = some (.call 0x300#12) := by decide

theorem test_decode_skips :
    decode 0x3342#16 = some (.seImm 3 0x42#8) ∧ decode 0x4542#16 = some (.sneImm 5 0x42#8) ∧
      decode 0x5120#16 = some (.seReg 1 2) ∧ decode 0x9560#16 = some (.sneReg 5 6) := by decide

theorem test_decode_loads :
    decode 0x6A2F#16 = some (.ldImm 10 0x2F#8) ∧ decode 0x7220#16 = some (.addImm 2 0x20#8) ∧
      decode 0x8150#16 = some (.ldReg 1 5) := by decide

theorem test_decode_logic :
    decode 0x8121#16 = some (.orReg 1 2) ∧ decode 0x8122#16 = some (.andReg 1 2) ∧
      decode 0x8123#16 = some (.xorReg 1 2) := by decide

theorem test_decode_arithmetic :
    decode 0x8124#16 = some (.addReg 1 2) ∧ decode 0x8125#16 = some (.sub 1 2) ∧ decode 0x8106#16 = some (.shr 1 0) ∧
      decode 0x8127#16 = some (.subn 1 2) ∧ decode 0x810E#16 = some (.shl 1 0) := by decide

theorem test_decode_index_random :
    decode 0xA2F0#16 = some (.ldI 0x2F0#12) ∧ decode 0xF41E#16 = some (.addI 4) ∧
      decode 0xC30F#16 = some (.rnd 3 0x0F#8) := by decide

theorem test_decode_keypad_timers :
    decode 0xE29E#16 = some (.skp 2) ∧ decode 0xE2A1#16 = some (.sknp 2) ∧ decode 0xF507#16 = some (.ldVxDt 5) ∧
      decode 0xF515#16 = some (.ldDtVx 5) ∧ decode 0xF618#16 = some (.ldStVx 6) ∧
      decode 0xF30A#16 = some (.ldVxK 3) := by decide

theorem test_decode_memory :
    decode 0xF729#16 = some (.ldF 7) ∧ decode 0xF133#16 = some (.ldB 1) ∧ decode 0xF255#16 = some (.ldMemStore 2) ∧
      decode 0xF265#16 = some (.ldMemLoad 2) := by decide

/-- T-EN1 to T-EN4, T-CF15, T-AL19: unknown words. -/
theorem test_decode_unknown :
    decode 0x0123#16 = none ∧ decode 0x00FF#16 = none ∧ decode 0xE1A2#16 = none ∧ decode 0xF075#16 = none ∧
      decode 0x5561#16 = none ∧ decode 0x8008#16 = none := by decide

/-- The first byte is the more significant one (R30), and the bytes after an instruction are left alone. -/
theorem test_decode_bytes :
    decodeBytes [0x12#8, 0x28#8, 0x99#8] = .ok (.jp 0x228#12, [0x99#8]) ∧
      decodeBytes [0x12#8] = .error .truncated ∧ decodeTableWord 16 0x1228 = some (.jp 0x228#12) := by decide

/-! ## One step -/

/-- The outcome is a next state of which `p` holds. -/
def nextIs (o : Host.Outcome State Fault Refusal) (p : State → Bool) : Bool :=
  match o with
  | .next t => p t
  | .fault _ => false
  | .refused _ => false

/-- One step of the word `w` placed in `s` ends in a next state of which `p` holds. -/
def ran (s : State) (w : Nat) (p : State → Bool) : Bool := nextIs (step (s.withFetchWord 16 w)) p

/-- The reset state with some general registers set. -/
def regs (l : List (Reg × Byte)) : State := l.foldl (fun s p => s.setV p.1 p.2) State.reset

/-- A state with the bytes of a list stored from `a` upward. -/
def withBytes (s : State) (a : Nat) (bytes : List Byte) : State := s.setMem (storeImage s.mem a bytes)

/-- The number of set cells of the display. -/
def litCells (s : State) : Nat := (s.disp.toList.map fun row => (row.toList.filter id).length).sum

/-- A display with every cell set. -/
def litDisplay : Display := Vector.replicate 32 (Vector.replicate 64 true)

/-- The machine halted with this cause. -/
def haltedWith (c : Cause) (s : State) : Bool := s.status == .halted c

/-! ### Control transfer -/

/-- T-CF8. -/
theorem test_ret : ran ((State.reset.setStack 0 0x206#16).setSP 1#8) 0x00EE
    (fun t => t.pc == 0x206#16 && t.SP == 0#8 && t.stack[0] == 0x206#16) = true := by decide

/-- T-CF10. -/
theorem test_ret_underflow : ran State.reset 0x00EE
    (fun t => haltedWith .stackUnderflow t && t.SP == 0#8 && t.pc == 0x200#16) = true := by decide

/-- T-CF1. -/
theorem test_jp : ran State.reset 0x1ABC (fun t => t.pc == 0xABC#16) = true := by decide

/-- T-CF3. -/
theorem test_jp_odd : ran State.reset 0x1301 (fun t => t.pc == 0x301#16) = true := by decide

/-- T-CF5. -/
theorem test_jpV0 : ran (regs [(0, 0xFF#8)]) 0xBFFF (fun t => t.pc == 0x10FE#16) = true := by decide

/-- T-CF6: the other value of `jump_offset_reg`. -/
theorem test_jpV0_other_parameter :
    jumpTarget .vx 0x300#12 (regs [(0, 0x10#8), (3, 0x20#8)]) = 0x320#16 := by decide

/-- T-CF7. -/
theorem test_call : ran (State.reset.setPc 0x204#16) 0x2300
    (fun t => t.stack[0] == 0x206#16 && t.SP == 1#8 && t.pc == 0x300#16) = true := by decide

/-- T-CF9. -/
theorem test_call_overflow : ran (State.reset.setSP 16#8) 0x2300
    (fun t => haltedWith .stackOverflow t && t.SP == 16#8 && t.pc == 0x200#16) = true := by decide

/-- R53. -/
theorem test_seImm : ran (regs [(3, 0x42#8)]) 0x3342 (fun t => t.pc == 0x204#16) = true ∧
    ran (regs [(3, 0x42#8)]) 0x3343 (fun t => t.pc == 0x202#16) = true := by decide

/-- T-CF16: a skip past the end of memory is stored as it is. -/
theorem test_seImm_top : ran (State.reset.setPc 0xFFE#16) 0x3200 (fun t => t.pc == 0x1002#16) = true := by decide

/-- T-CF11, T-CF12. -/
theorem test_sneImm : ran (regs [(5, 0x42#8)]) 0x4542 (fun t => t.pc == 0x202#16) = true ∧
    ran (regs [(5, 0x41#8)]) 0x4542 (fun t => t.pc == 0x204#16) = true := by decide

/-- R55. -/
theorem test_seReg : ran ((regs [(1, 7#8), (2, 7#8)]).setPc 0x210#16) 0x5120 (fun t => t.pc == 0x214#16) = true ∧
    ran ((regs [(1, 7#8), (2, 8#8)]).setPc 0x210#16) 0x5120 (fun t => t.pc == 0x212#16) = true := by decide

/-- T-CF13, T-CF14. -/
theorem test_sneReg : ran (regs [(5, 1#8), (6, 2#8)]) 0x9560 (fun t => t.pc == 0x204#16) = true ∧
    ran (regs [(5, 1#8), (6, 1#8)]) 0x9560 (fun t => t.pc == 0x202#16) = true := by decide

/-! ### Arithmetic and logic -/

/-- T-AL1. -/
theorem test_ldImm : ran State.reset 0x6A9D (fun t => t.V[10] == 0x9D#8 && t.pc == 0x202#16) = true := by decide

/-- W1: no flag, and VF as an ordinary destination. -/
theorem test_addImm : ran (regs [(3, 0xF0#8), (15, 0x5A#8)]) 0x7320
      (fun t => t.V[3] == 0x10#8 && t.V[15] == 0x5A#8) = true ∧
    ran (regs [(15, 0xFF#8)]) 0x7F01 (fun t => t.V[15] == 0#8) = true := by decide

/-- T-AL4. -/
theorem test_ldReg : ran (regs [(1, 0x42#8), (15, 0x55#8)]) 0x8010
    (fun t => t.V[0] == 0x42#8 && t.V[15] == 0x55#8) = true := by decide

/-- W4. -/
theorem test_orReg : ran (regs [(0, 0x0F#8), (1, 0xF0#8), (15, 1#8)]) 0x8011
    (fun t => t.V[0] == 0xFF#8 && t.V[15] == 0#8) = true := by decide

/-- W4, `x = F`. -/
theorem test_orReg_into_VF : ran (regs [(1, 0x0F#8), (15, 0xF0#8)]) 0x8F11 (fun t => t.V[15] == 0#8) = true := by
  decide

/-- W4. -/
theorem test_andReg : ran (regs [(0, 0x0F#8), (1, 0x3C#8), (15, 1#8)]) 0x8012
    (fun t => t.V[0] == 0x0C#8 && t.V[15] == 0#8) = true := by decide

/-- W4. -/
theorem test_xorReg : ran (regs [(0, 0x0F#8), (1, 0x3C#8), (15, 1#8)]) 0x8013
    (fun t => t.V[0] == 0x33#8 && t.V[15] == 0#8) = true := by decide

/-- W2: 255 sets no carry, 256 does. -/
theorem test_addReg : ran (regs [(0, 0xFF#8), (1, 0x01#8)]) 0x8014
      (fun t => t.V[0] == 0#8 && t.V[15] == 1#8) = true ∧
    ran (regs [(0, 0x7F#8), (1, 0x80#8)]) 0x8014 (fun t => t.V[0] == 0xFF#8 && t.V[15] == 0#8) = true := by decide

/-- T-AL7, T-AL8: the flag wins where `x = F`. -/
theorem test_addReg_into_VF : ran (regs [(1, 0x20#8), (15, 0xF0#8)]) 0x8F14 (fun t => t.V[15] == 1#8) = true ∧
    ran (regs [(1, 0x20#8), (15, 0xD0#8)]) 0x8F14 (fun t => t.V[15] == 0#8) = true := by decide

/-- W3. -/
theorem test_sub : ran (regs [(0, 5#8), (1, 5#8)]) 0x8015 (fun t => t.V[0] == 0#8 && t.V[15] == 1#8) = true ∧
    ran (regs [(0, 5#8), (1, 6#8)]) 0x8015 (fun t => t.V[0] == 0xFF#8 && t.V[15] == 0#8) = true := by decide

/-- T-AL10: `y = F` is read before the flag is written. -/
theorem test_sub_VF_operand : ran (regs [(0, 0x10#8), (15, 5#8)]) 0x80F5
    (fun t => t.V[0] == 0x0B#8 && t.V[15] == 1#8) = true := by decide

/-- T-AL12 and, for the other value of `shift_source`, T-AL13. -/
theorem test_shr : ran (regs [(0, 4#8), (1, 3#8)]) 0x8016 (fun t => t.V[0] == 2#8 && t.V[15] == 0#8) = true ∧
    nextIs (shiftRight (shiftOperand .vy 0 1 (regs [(0, 4#8), (1, 3#8)])) 0 (regs [(0, 4#8), (1, 3#8)]))
      (fun t => t.V[0] == 1#8 && t.V[15] == 1#8) = true := by decide

/-- T-AL16. -/
theorem test_shr_into_VF : ran (regs [(15, 3#8)]) 0x8F06 (fun t => t.V[15] == 1#8) = true := by decide

/-- W3. -/
theorem test_subn : ran (regs [(0, 5#8), (1, 6#8)]) 0x8017 (fun t => t.V[0] == 1#8 && t.V[15] == 1#8) = true ∧
    ran (regs [(0, 6#8), (1, 5#8)]) 0x8017 (fun t => t.V[0] == 0xFF#8 && t.V[15] == 0#8) = true := by decide

/-- T-AL14, T-AL15. -/
theorem test_shl : ran (regs [(0, 0x81#8)]) 0x801E (fun t => t.V[0] == 2#8 && t.V[15] == 1#8) = true ∧
    ran (regs [(0, 0x40#8)]) 0x801E (fun t => t.V[0] == 0x80#8 && t.V[15] == 0#8) = true := by decide

/-! ### Index register and random byte -/

/-- T-IR1. -/
theorem test_ldI : ran State.reset 0xA123 (fun t => t.I == 0x123#16) = true := by decide

/-- T-IR3, T-IR4. -/
theorem test_addI : ran ((regs [(1, 1#8)]).setI 0xFFF#16) 0xF11E
      (fun t => t.I == 0x1000#16 && t.V[15] == 0#8) = true ∧
    ran ((regs [(1, 0xFF#8)]).setI 0xFFFF#16) 0xF11E (fun t => t.I == 0x00FE#16) = true := by decide

/-- T-IR5, the draw given. -/
theorem test_rnd_masks : nextIs (randomMasked 0xB7#8 3 0x0F#8 State.reset) (fun t => t.V[3] == 7#8) = true := by decide

/-- A completed draw counts, and moves `pc` on. -/
theorem test_rnd_counts : ran State.reset 0xC300 (fun t => t.pc == 0x202#16 && t.draws == 1) = true := by decide

/-! ### Display -/

/-- T-DS1. -/
theorem test_cls : ran (State.reset.setDisp litDisplay) 0x00E0 (fun t => litCells t == 0) = true := by decide

/-- T-DS4: the glyph A across both edges. -/
theorem test_drw_wraps : ran ((regs [(1, 0x3E#8), (2, 0x1E#8)]).setI 0x32#16) 0xD125
    (fun t => litCells t == 14 && cell t.disp 62 30 && cell t.disp 1 30 && cell t.disp 1 31 && cell t.disp 0 0 &&
      cell t.disp 1 2 && !cell t.disp 2 30 && t.V[15] == 0#8) = true := by decide

/-- T-DS10, on a display with every cell set: the column is the old VF, and then VF is the collision flag. -/
theorem test_drw_VF_coordinate :
    ran (((withBytes (regs [(15, 0x3C#8)]) 0x300 [0x80#8]).setI 0x300#16).setDisp litDisplay) 0xDF01
      (fun t => !cell t.disp 0x3C 0 && cell t.disp 0x3D 0 && t.V[15] == 1#8) = true := by decide

/-! ### Keypad, timers and wait -/

/-- T-KT1, T-KT3. -/
theorem test_skp : ran (((regs [(2, 5#8)]).setKey 5 true).setPc 0x220#16) 0xE29E (fun t => t.pc == 0x224#16) = true ∧
    ran ((regs [(2, 0x1A#8)]).setKey 10 true) 0xE29E (fun t => t.pc == 0x204#16) = true := by decide

/-- T-KT4. -/
theorem test_sknp : ran ((regs [(2, 5#8)]).setPc 0x220#16) 0xE2A1 (fun t => t.pc == 0x224#16) = true := by decide

/-- T-KT5. -/
theorem test_ldVxDt : ran (State.reset.setDT 0x3C#8) 0xF507 (fun t => t.V[5] == 0x3C#8) = true := by decide

/-- R78. -/
theorem test_ldDtVx : ran (regs [(5, 0x3C#8)]) 0xF515 (fun t => t.DT == 0x3C#8 && t.ST == 0#8) = true := by decide

/-- T-KT8. -/
theorem test_ldStVx : ran (regs [(6, 0x0A#8)]) 0xF618 (fun t => t.ST == 0x0A#8 && t.DT == 0#8) = true := by decide

/-- T-KT9. -/
theorem test_ldVxK_begins : ran State.reset 0xF30A
    (fun t => t.waiting && t.candidate == none && t.pc == 0x200#16) = true := by decide

/-- The last Advance of T-KT11. -/
theorem test_ldVxK_completes : ran ((State.reset.setWait (.awaitingRelease 7)).setKey 9 true) 0xF30A
    (fun t => t.V[3] == 7#8 && !t.waiting && t.pc == 0x202#16 && t.key[9]) = true := by decide

/-! ### Memory operations -/

/-- T-MO2. -/
theorem test_ldF : ran (regs [(3, 0xAB#8)]) 0xF329 (fun t => t.I == 0x37#16) = true := by decide

/-- T-MO5: the block ends at the last byte of memory. -/
theorem test_ldB : ran ((regs [(4, 0x9D#8)]).setI 0xFFD#16) 0xF433
    (fun t => t.mem.read 0xFFD == 1#8 && t.mem.read 0xFFE == 5#8 && t.mem.read 0xFFF == 7#8 && t.I == 0xFFD#16) =
      true := by decide

/-- T-MO6. -/
theorem test_ldB_fault : ran ((regs [(4, 0x9D#8)]).setI 0xFFE#16) 0xF433
    (fun t => haltedWith (.addressFault 0x1000) t && t.mem.read 0xFFE == 0#8) = true := by decide

/-- R84. -/
theorem test_ldMemStore : ran ((regs [(0, 1#8), (1, 2#8), (2, 3#8), (3, 4#8)]).setI 0x300#16) 0xF255
    (fun t => t.mem.read 0x300 == 1#8 && t.mem.read 0x301 == 2#8 && t.mem.read 0x302 == 3#8 &&
      t.mem.read 0x303 == 0#8 && t.I == 0x303#16) = true := by decide

/-- T-MO9. -/
theorem test_ldMemStore_fault : ran ((regs [(0, 1#8)]).setI 0xFFE#16) 0xF255
    (fun t => haltedWith (.addressFault 0x1000) t && t.mem.read 0xFFE == 0#8 && t.I == 0xFFE#16) = true := by decide

/-- T-MO12: the font's glyph 0. -/
theorem test_ldMemLoad : ran State.reset 0xF465
    (fun t => t.V[0] == 0xF0#8 && t.V[1] == 0x90#8 && t.V[4] == 0xF0#8 && t.V[5] == 0#8 && t.I == 5#16) = true := by
  decide

/-- T-MO11: VF is an ordinary destination. -/
theorem test_ldMemLoad_VF : ran ((withBytes State.reset 0x30F [0x5A#8]).setI 0x300#16) 0xFF65
    (fun t => t.V[15] == 0x5A#8 && t.I == 0x310#16) = true := by decide

/-! ### Fetch, report and host operations -/

/-- T-EN1. -/
theorem test_unknown_word : ran State.reset 0x0123
    (fun t => t.diag == [⟨0x200#16, 0x0123#16⟩] && t.pc == 0x202#16) = true := by decide

/-- T-EN5, T-EN6. -/
theorem test_fetch_fault :
    nextIs (advance (State.reset.setPc 0xFFF#16)) (haltedWith (.addressFault 0x1000)) = true ∧
      nextIs (advance (State.reset.setPc 0x1000#16)) (haltedWith (.addressFault 0x1000)) = true := by decide

/-- T-EN7: an odd fetch. -/
theorem test_odd_fetch : ran (State.reset.setPc 0x201#16) 0x6007
    (fun t => t.V[0] == 7#8 && t.pc == 0x203#16) = true := by decide

/-- W10 and R109: from reset with an empty ROM the first Advance reports the word 0x0000. -/
theorem test_empty_rom : nextIs (advance State.reset)
    (fun t => t.diag == [⟨0x200#16, 0#16⟩] && t.pc == 0x202#16) = true := by decide

/-- W10. -/
theorem test_construct_limit : construct (List.replicate 3585 0#8) none = .error ⟨3585⟩ := by
  rw [construct, List.length_replicate]; rfl

/-- T-EN8, T-EN9: on a halted machine nothing but Render has a step. -/
theorem test_halted :
    applyOp .tick (State.reset.setStatus (.halted .stackUnderflow)) = .fault (.halted .stackUnderflow) ∧
      nextIs (applyOp .render (State.reset.setStatus (.halted .stackUnderflow)))
        (haltedWith .stackUnderflow) = true := by
  exact ⟨rfl, by decide⟩

/-- T-EN10 with the byte offset of R97's formula, 3 * (1 * 64 + 2) = 198 (the vector's 390 is a slip): the colours of the
cell (2, 1) and of its neighbours. -/
theorem test_render :
    ((renderFrame ((State.reset.setDisp (toggleCell 2 1 ⟨State.reset.disp, false⟩).disp).setColours
      ⟨⟨255#8, 255#8, 255#8⟩, ⟨0#8, 0#8, 0#8⟩⟩)).bytes.drop 197).take 5 = [0#8, 255#8, 255#8, 255#8, 0#8] := by
  decide

/-- T-EN11. -/
theorem test_setColours_once :
    applyOp (.setColours ⟨⟨1#8, 1#8, 1#8⟩, ⟨2#8, 2#8, 2#8⟩⟩)
      (State.reset.setColours ⟨⟨255#8, 255#8, 255#8⟩, ⟨0#8, 0#8, 0#8⟩⟩) = .refused .coloursAlreadySet := rfl

/-- T-KT7 and, in the order of the schedule, one Tick. -/
theorem test_tick : nextIs (step ((State.reset.setDT 1#8).setSchedule [.tick]))
      (fun t => t.DT == 0#8 && t.ST == 0#8 && t.schedule == []) = true ∧
    nextIs (step (State.reset.setSchedule [.tick])) (fun t => t.DT == 0#8) = true := by decide

/-- After the schedule comes what the tail gives: here the open order moves on by one operation. -/
theorem test_open_order : (State.reset.setSchedule [.render]).takeOp.tail = .openFrom 0 ∧
    State.reset.takeOp.tail = .openFrom 1 ∧ State.reset.nextOp = Config.hostOrder 0 := ⟨rfl, rfl, rfl⟩

/-- T-KT10, T-KT15: a press during a wait is the candidate, a release is not. -/
theorem test_keyEvent :
    nextIs (applyOp (.keyEvent 7 true) (State.reset.setWait .awaitingPress))
      (fun t => t.candidate == some 7 && t.key[7]) = true ∧
    nextIs (applyOp (.keyEvent 3 false) (State.reset.setWait .awaitingPress))
      (fun t => t.candidate == none && t.waiting) = true := by decide

/-! ## Witnesses: for each obligation with hypotheses, a concrete state and operands that meet them together -/

/-- The reset state with `pc` at `a` and the word `w` there. -/
def placedAt (a : Word) (w : Nat) : State := (State.reset.setPc a).withFetchWord 16 w

/-- A machine that halted on an empty stack. -/
def halted : State := State.reset.setStatus (.halted .stackUnderflow)

theorem witness_DecodeInvertsEncode : (Instr.drw 15 15 15).wf = true ∧ Instr.cls.wf = true := by decide

theorem witness_EncodeInvertsDecode :
    decode 0xDFFF#16 = some (.drw 15 15 15) ∧ decode 0x00E0#16 = some .cls := by decide

/-- One word for each row of the map. -/
theorem witness_OpcodeMapRows :
    (fieldOp 0x1FFF#16 = 0x1#4 ∧ fieldOp 0x2000#16 = 0x2#4 ∧ fieldOp 0x3FFF#16 = 0x3#4 ∧ fieldOp 0x4000#16 = 0x4#4 ∧
      (fieldOp 0x5FF0#16 = 0x5#4 ∧ fieldN 0x5FF0#16 = 0x0#4) ∧ fieldOp 0x6000#16 = 0x6#4 ∧
      fieldOp 0x7FFF#16 = 0x7#4) ∧
    (∀ n ∈ [0x0#4, 0x1#4, 0x2#4, 0x3#4, 0x4#4, 0x5#4, 0x6#4, 0x7#4, 0xE#4],
      fieldOp (packXYN 0x8#4 15 0 n) = 0x8#4 ∧ fieldN (packXYN 0x8#4 15 0 n) = n) ∧
    ((fieldOp 0x9FF0#16 = 0x9#4 ∧ fieldN 0x9FF0#16 = 0x0#4) ∧ fieldOp 0xAFFF#16 = 0xA#4 ∧ fieldOp 0xB000#16 = 0xB#4 ∧
      fieldOp 0xCFFF#16 = 0xC#4 ∧ fieldOp 0xDFFF#16 = 0xD#4) ∧
    (∀ kk ∈ [0x9E#8, 0xA1#8], fieldOp (packXKK 0xE#4 15 kk) = 0xE#4 ∧ fieldKK (packXKK 0xE#4 15 kk) = kk) ∧
    (∀ kk ∈ [0x07#8, 0x0A#8, 0x15#8, 0x18#8, 0x1E#8, 0x29#8, 0x33#8, 0x55#8, 0x65#8],
      fieldOp (packXKK 0xF#4 15 kk) = 0xF#4 ∧ fieldKK (packXKK 0xF#4 15 kk) = kk) := by decide

/-- At the last address an instruction fits at. -/
theorem witness_StepRunsTheDecodedInstruction :
    (placedAt 0xFFE#16 0x00E0).nextOp = .advance ∧ (placedAt 0xFFE#16 0x00E0).status = .running ∧
      (placedAt 0xFFE#16 0x00E0).pc.toNat + 1 < 4096 ∧
      decodeBytes [(placedAt 0xFFE#16 0x00E0).mem.read (placedAt 0xFFE#16 0x00E0).pc.toNat,
        (placedAt 0xFFE#16 0x00E0).mem.read ((placedAt 0xFFE#16 0x00E0).pc.toNat + 1)] = .ok (.cls, []) := by decide

/-- The three clauses at the addresses where they meet. -/
theorem witness_FetchIsBigEndian :
    4096 ≤ (0x1000#16).toNat ∧ (0xFFF#16).toNat = 4095 ∧ (0xFFE#16).toNat + 1 < 4096 := by decide

theorem witness_UnknownWordIsReported :
    (placedAt 0x200#16 0x0123).status = .running ∧
      fetch (placedAt 0x200#16 0x0123).mem (placedAt 0x200#16 0x0123).pc = .ok 0x0123#16 ∧
      decode 0x0123#16 = none := by decide

theorem witness_FetchFaultHalts :
    (State.reset.setPc 0xFFF#16).status = .running ∧ 4096 ≤ (State.reset.setPc 0xFFF#16).pc.toNat + 1 := by decide

theorem witness_StepIsTheScheduledOperation :
    (State.reset.setSchedule [.tick]).schedule = .tick :: [] ∧
      (State.reset.schedule = [] ∧ State.reset.tail = .openFrom 0) ∧
      ((State.reset.setTail .advances).schedule = [] ∧ (State.reset.setTail .advances).tail = .advances) ∧
      halted.status = .halted .stackUnderflow ∧ HostOp.tick ≠ .render := by decide

/-- A fatal return, and a fatal fetch. -/
theorem witness_FatalAdvanceChangesOnlyTheStatus :
    ((placedAt 0x200#16 0x00EE).status = .running ∧
      advance (placedAt 0x200#16 0x00EE) = .next ((placedAt 0x200#16 0x00EE).setStatus (.halted .stackUnderflow)) ∧
      ((placedAt 0x200#16 0x00EE).setStatus (.halted .stackUnderflow)).status = .halted .stackUnderflow) ∧
    ((State.reset.setPc 0xFFF#16).status = .running ∧
      advance (State.reset.setPc 0xFFF#16) =
        .next ((State.reset.setPc 0xFFF#16).setStatus (.halted (.addressFault 4096))) ∧
      ((State.reset.setPc 0xFFF#16).setStatus (.halted (.addressFault 4096))).status =
        .halted (.addressFault 4096)) :=
  ⟨⟨rfl, rfl, rfl⟩, rfl, rfl, rfl⟩

/-- `inv` at its bound: SP is 16. -/
theorem witness_RunningAdvanceHasANextState :
    (State.reset.setSP 16#8).inv ∧ (State.reset.setSP 16#8).status = .running :=
  ⟨⟨by decide, by decide⟩, rfl⟩

/-- T-CF2. -/
theorem witness_ParkedAdvanceChangesNothing : (placedAt 0x200#16 0x1200).parked :=
  ⟨rfl, 0x1200#16, 0x200#12, by decide, by decide, by decide⟩

/-- SP is 0, 1 and 16. -/
theorem witness_ReturnPopsTheStack :
    State.reset.SP = 0#8 ∧ (State.reset.setSP 1#8).SP.toNat = (0 : Fin 16).val + 1 ∧
      (State.reset.setSP 16#8).SP.toNat = (15 : Fin 16).val + 1 := by decide

theorem witness_JumpWithOffsetAddsV0 :
    (15 : Reg).val = (0xFFF#12).toNat / 256 ∧ (0 : Reg).val = (0x000#12).toNat / 256 := by decide

/-- SP is 16, 0 and 15, and another entry of the stack. -/
theorem witness_CallPushesTheNextAddress :
    (State.reset.setSP 16#8).SP.toNat = 16 ∧ State.reset.SP.toNat = (0 : Fin 16).val ∧
      (State.reset.setSP 15#8).SP.toNat = (15 : Fin 16).val ∧ (0 : Fin 16) ≠ 15 := by decide

theorem witness_ImmediateSkipsMovePcByFourOrTwo :
    reg (regs [(3, 0x42#8)]) 3 = 0x42#8 ∧ reg (regs [(3, 0x42#8)]) 3 ≠ 0x43#8 := by decide

theorem witness_RegisterSkipsMovePcByFourOrTwo :
    reg (regs [(1, 7#8), (2, 7#8)]) 1 = reg (regs [(1, 7#8), (2, 7#8)]) 2 ∧
      reg (regs [(1, 7#8), (2, 7#8)]) 1 ≠ reg (regs [(1, 7#8), (2, 7#8)]) 0 := by decide

theorem witness_RandomByteIsMasked : (3 : Reg) ≠ 15 ∧ (0x0F#8).getLsbD 4 = false := by decide

/-- Fifteen rows that end at the last byte of memory; no rows, with I beyond memory; a draw that flips a set cell off; and
one on a clear display, where no cell can. -/
theorem witness_DrawTogglesExactlyTheSpriteCells :
    ((Instr.drw 15 15 15).wf = true ∧ (State.reset.setI 0xFF1#16).I.toNat + 15 ≤ 4096) ∧
      ((Instr.drw 0 0 0).wf = true ∧ (0 = 0 ∨ (State.reset.setI 0xFFFF#16).I.toNat + 0 ≤ 4096)) ∧
      nextIs (exec (.drw 0 1 1) (State.reset.setDisp litDisplay))
        (fun t => cell litDisplay 0 0 == true && cell t.disp 0 0 == false) = true ∧
      ¬ ∃ px py, cell State.reset.disp px py = true := by
  refine ⟨by decide, by decide, by decide, ?_⟩
  rintro ⟨px, py, h⟩
  simp [cell, State.reset] at h

theorem witness_DrawingTwiceRestoresTheDisplay :
    (Instr.drw 0 1 5).wf = true ∧ (0 : Reg) ≠ VF ∧ (1 : Reg) ≠ VF ∧ State.reset.I.toNat + 5 ≤ 4096 := by decide

/-- Each block one byte too long, and the single row just outside memory. -/
theorem witness_DataAccessFaultsArePrecise :
    ((Instr.drw 0 1 1).wf = true ∧ 0 < 1 ∧ 4096 < (State.reset.setI 0x1000#16).I.toNat + 1) ∧
      4096 < (State.reset.setI 0xFFE#16).I.toNat + 3 ∧
      4096 < (State.reset.setI 0xFF1#16).I.toNat + (15 : Reg).val + 1 ∧
      4096 < (State.reset.setI 0x1000#16).I.toNat + (0 : Reg).val + 1 := by decide

/-- The named key, pressed in one state and released in the other. -/
theorem witness_KeySkipsTestTheNamedLatch :
    ((10 : Key).val = (reg (regs [(2, 0x1A#8)]) 2).toNat % 16 ∧ (regs [(2, 0x1A#8)]).key[(10 : Key).val] = false) ∧
      ((10 : Key).val = (reg ((regs [(2, 0x1A#8)]).setKey 10 true) 2).toNat % 16 ∧
        ((regs [(2, 0x1A#8)]).setKey 10 true).key[(10 : Key).val] = true) := by decide

/-- The four sub-states an execution of Fx0A can find. -/
theorem witness_WaitForKeyCompletesOnRelease :
    State.reset.waiting = false ∧
      ((State.reset.setWait .awaitingPress).waiting = true ∧ (State.reset.setWait .awaitingPress).candidate = none) ∧
      ((State.reset.setWait (.awaitingRelease 7)).candidate = some 7 ∧
        (State.reset.setWait (.awaitingRelease 7)).key[(7 : Key).val] = false) ∧
      (((State.reset.setWait (.awaitingRelease 7)).setKey 7 true).candidate = some 7 ∧
        ((State.reset.setWait (.awaitingRelease 7)).setKey 7 true).key[(7 : Key).val] = true) := by decide

theorem witness_InputWaitTable :
    (State.reset.setWait .awaitingPress).status = .running ∧
      (HostOp.tick ≠ .advance ∧ (∀ k p, HostOp.tick ≠ .keyEvent k p) ∧
        applyOp .tick (State.reset.setWait .awaitingPress) = .next (State.reset.setWait .awaitingPress)) ∧
      ((∀ x, Instr.jp 0x300#12 ≠ .ldVxK x) ∧
        exec (.jp 0x300#12) State.reset = .next (State.reset.setPc 0x300#16)) :=
  ⟨rfl, ⟨by decide, nofun, rfl⟩, nofun, rfl⟩

/-- The machine of program P5, with the schedule of the wait. -/
def aboutToWait : State :=
  { placedAt 0x200#16 0xF30A with
    schedule := [.advance, .keyEvent 7 true, .advance, .keyEvent 7 false, .advance] }

theorem witness_WaitEndsAfterPressAndRelease :
    aboutToWait.status = .running ∧ aboutToWait.waiting = false ∧ fetch aboutToWait.mem aboutToWait.pc = .ok 0xF30A#16 ∧
      decode 0xF30A#16 = some (.ldVxK 3) ∧
      aboutToWait.schedule = [.advance, .keyEvent 7 true, .advance, .keyEvent 7 false, .advance] := by decide

/-- The block that ends at the last byte of memory. -/
theorem witness_BcdStoresThreeDigits :
    (State.reset.setI 0xFFD#16).inv ∧ (State.reset.setI 0xFFD#16).I.toNat + 2 < 4096 :=
  ⟨⟨by decide, by decide⟩, by decide⟩

theorem witness_RegisterDumpStoresV0ThroughVx :
    (State.reset.setI 0xFF0#16).inv ∧ (State.reset.setI 0xFF0#16).I.toNat + (15 : Reg).val < 4096 :=
  ⟨⟨by decide, by decide⟩, by decide⟩

theorem witness_RegisterLoadReadsV0ThroughVx :
    (State.reset.setI 0xFF0#16).I.toNat + (15 : Reg).val < 4096 ∧
      (State.reset.setI 0xFFF#16).I.toNat + (0 : Reg).val < 4096 := by decide

/-- W7: the load finds the memory the dump left and the index register set back. -/
theorem witness_DumpThenLoadRestoresTheRegisters :
    ((regs [(0, 0x11#8), (1, 0x22#8)]).setI 0x300#16).inv ∧
      ((regs [(0, 0x11#8), (1, 0x22#8)]).setI 0x300#16).I.toNat + (2 : Reg).val < 4096 ∧
      nextIs (exec (.ldMemStore 2) ((regs [(0, 0x11#8), (1, 0x22#8)]).setI 0x300#16))
        (fun t => (t.setI 0x300#16).mem == t.mem && (t.setI 0x300#16).I == 0x300#16) = true :=
  ⟨⟨by decide, by decide⟩, by decide, by decide⟩

/-- A byte that differs from the reset image is listed; 4095 is inside memory and 4096 is not. -/
theorem witness_WriteChangesExactlyTheAddressedByte :
    Memory.wf [(0x300, 1#8)] = true ∧ 4095 < 4096 ∧ 4096 ≤ 4096 := by decide

theorem witness_MemoriesThatReadAlikeAreEqual :
    Memory.wf (Memory.write [] 0x300 1#8) = true ∧ Memory.wf [(0x300, 1#8)] = true ∧
      ∀ a, a < 4096 → Memory.read (Memory.write [] 0x300 1#8) a = Memory.read [(0x300, 1#8)] a :=
  ⟨by decide, by decide, fun _ _ => rfl⟩

theorem witness_StepKeepsMemoryAndStackPointerLegal :
    (placedAt 0x200#16 0x2300).inv ∧ nextIs (step (placedAt 0x200#16 0x2300)) (fun t => t.SP == 1#8) = true :=
  ⟨⟨by decide, by decide⟩, by decide⟩

/-- `pc` one word below the end of memory, with a return address in use. -/
theorem witness_StepKeepsPcBounded :
    ((placedAt 0xFFE#16 0x00EE).setSP 1#8).pcBounded ∧
      nextIs (step ((placedAt 0xFFE#16 0x00EE).setSP 1#8)) (fun t => t.pc == 0#16) = true :=
  ⟨⟨by decide, by decide⟩, by decide⟩

/-- A waiting machine at its Fx0A. -/
theorem witness_StepKeepsWaitingAtFx0A :
    ((placedAt 0x200#16 0xF30A).setWait .awaitingPress).waitsAtFx0A ∧
      ((placedAt 0x200#16 0xF30A).setWait .awaitingPress).waiting = true ∧
      nextIs (step ((placedAt 0x200#16 0xF30A).setWait .awaitingPress)) (fun t => t.waiting) = true :=
  ⟨fun _ => ⟨0xF30A#16, 3, by decide, by decide⟩, by decide, by decide⟩

theorem witness_OnlyDrawAndClearMutateTheDisplay :
    (¬ mutatesDisplay (.jp 0x300#12) ∧ exec (.jp 0x300#12) State.reset = .next (State.reset.setPc 0x300#16)) ∧
      (HostOp.tick ≠ .advance ∧ applyOp .tick State.reset = .next State.reset) :=
  ⟨⟨(by rintro (h | ⟨x, y, n, h⟩) <;> injection h), rfl⟩, by decide, rfl⟩

theorem witness_OnlyTheirInstructionsTouchMemoryAndStack :
    (exec (.jp 0x300#12) State.reset = .next (State.reset.setPc 0x300#16) ∧ ¬ storesToMemory (.jp 0x300#12) ∧
        ¬ usesStack (.jp 0x300#12)) ∧
      (HostOp.tick ≠ .advance ∧ applyOp .tick State.reset = .next State.reset) :=
  ⟨⟨rfl, (by rintro ⟨x, h | h⟩ <;> injection h), (by rintro (h | ⟨nnn, h⟩) <;> injection h)⟩, by decide, rfl⟩

theorem witness_LatchesChangeOnlyByKeyEvent :
    (exec (.jp 0x300#12) State.reset = .next (State.reset.setPc 0x300#16) ∧
        ∀ x, Instr.jp 0x300#12 ≠ .skp x ∧ Instr.jp 0x300#12 ≠ .sknp x ∧ Instr.jp 0x300#12 ≠ .ldVxK x) ∧
      (HostOp.tick ≠ .advance ∧ (∀ k p, HostOp.tick ≠ .keyEvent k p) ∧
        applyOp .tick State.reset = .next State.reset) :=
  ⟨⟨rfl, fun _ => ⟨nofun, nofun, nofun⟩⟩, by decide, nofun, rfl⟩

theorem witness_DelayTimerIsTouchedOnlyByItsRules :
    ((∀ x, Instr.jp 0x300#12 ≠ .ldDtVx x) ∧ (∀ x, Instr.jp 0x300#12 ≠ .ldVxDt x) ∧
        exec (.jp 0x300#12) State.reset = .next (State.reset.setPc 0x300#16)) ∧
      (HostOp.render ≠ .advance ∧ HostOp.render ≠ .tick ∧ applyOp .render State.reset = .next State.reset) ∧
      State.reset.status = .running :=
  ⟨⟨nofun, nofun, rfl⟩, ⟨by decide, by decide, rfl⟩, rfl⟩

theorem witness_ProgramsCannotSeeHostOnlyState :
    exec (.jp 0x300#12) State.reset = .next (State.reset.setPc 0x300#16) := rfl

/-- An instruction that completes, an unknown word, and a fatal Advance. -/
theorem witness_PcSuccessorFollowsTheTable :
    (State.reset.status = .running ∧ exec (.jp 0x300#12) State.reset = .next (State.reset.setPc 0x300#16) ∧
        (State.reset.setPc 0x300#16).status = .running) ∧
      (advance State.reset = .next (State.reset.appendDiag ⟨0x200#16, 0#16⟩).advancePc ∧
        fetch State.reset.mem State.reset.pc = .ok 0#16 ∧ decode 0#16 = none) ∧
      (advance (State.reset.setPc 0xFFF#16) =
          .next ((State.reset.setPc 0xFFF#16).setStatus (.halted (.addressFault 4096))) ∧
        ((State.reset.setPc 0xFFF#16).setStatus (.halted (.addressFault 4096))).status ≠ .running) :=
  ⟨⟨rfl, rfl, rfl⟩, ⟨rfl, rfl, by decide⟩, rfl, by decide⟩

/-- Both a form that writes a register, seen at another register, and one that writes none. -/
theorem witness_InstructionsWriteOnlyTheirRegisters :
    (exec (.ldImm 3 0x42#8) State.reset = .next ((State.reset.setV 3 0x42#8).advancePc) ∧
        ¬ mayWriteReg (.ldImm 3 0x42#8) 4) ∧
      ¬ mayWriteReg (.ldMemLoad 2) 3 ∧ ¬ mayWriteReg (.jp 0x300#12) 0 :=
  ⟨⟨rfl, by simp [mayWriteReg]⟩, by simp [mayWriteReg], by simp [mayWriteReg]⟩

/-- A step that reports, and a step of a halted machine. -/
theorem witness_DiagGrowsAndStatusChangesOnce :
    step (State.reset.setTail .advances) =
        .next ((State.reset.setTail .advances).appendDiag ⟨0x200#16, 0#16⟩).advancePc ∧
      (step (halted.setSchedule [.render]) = .next halted ∧
        (halted.setSchedule [.render]).status = .halted .stackUnderflow) :=
  ⟨rfl, rfl, rfl⟩

/-- Both timers at 1, and both at 0. -/
theorem witness_TickDecrementsBothTimersToZero :
    (((State.reset.setDT 1#8).setST 1#8).status = .running ∧ ((State.reset.setDT 1#8).setST 1#8).DT.toNat > 0 ∧
        ((State.reset.setDT 1#8).setST 1#8).ST.toNat > 0) ∧
      (State.reset.status = .running ∧ State.reset.DT.toNat = 0 ∧ State.reset.ST.toNat = 0) := by decide

/-- A set cell and a clear one. -/
theorem witness_RenderMapsEachCellToItsColour :
    (fgColour (State.reset.setDisp litDisplay) =
        if cell (State.reset.setDisp litDisplay).disp 63 31 then fgColour (State.reset.setDisp litDisplay)
        else bgColour (State.reset.setDisp litDisplay)) ∧
      (bgColour State.reset = if cell State.reset.disp 0 0 then fgColour State.reset else bgColour State.reset) :=
  ⟨rfl, rfl⟩

theorem witness_ColoursAreSetOnce :
    (State.reset.status = .running ∧ State.reset.colours = none) ∧
      construct [0x12#8] (some ⟨⟨1#8, 1#8, 1#8⟩, ⟨2#8, 2#8, 2#8⟩⟩) =
        .ok { State.reset with mem := [(0x200, 0x12#8)], colours := some ⟨⟨1#8, 1#8, 1#8⟩, ⟨2#8, 2#8, 2#8⟩⟩ } :=
  ⟨⟨rfl, rfl⟩, rfl⟩

/-- The limit, one byte more, and the boundaries of the ranges outside the font. -/
theorem witness_ConstructBuildsTheImageOrFails :
    3584 < (List.replicate 3585 0#8).length ∧ (List.replicate 3584 0#8).length ≤ 3584 ∧
      80 ≤ 0x1FF ∧ 0x1FF < 0x200 ∧ 0 < [0x12#8].length ∧ 0x200 + [0x12#8].length ≤ 4095 ∧ 4095 < 4096 := by
  simp only [List.length_replicate]
  decide

end Sys2Proof.Tests
end

section
/-! The delay timer (10_state.md R18). An instruction that neither reads nor writes DT commutes with setting it: run from
a state with another DT, it makes the same changes and keeps that DT. Both that such an instruction keeps DT and that
another DT changes nothing else follow from this one law. -/

namespace Sys2Proof.Machine

/-! ## Fx0A in each sub-state (R80, R81) -/

theorem execLdVxK_idle (x : Reg) {s : State} (hw : s.wait = .idle) :
    execLdVxK x s = .next (s.setWait .awaitingPress) := by
  simp only [execLdVxK, hw]

theorem execLdVxK_awaitingPress (x : Reg) {s : State} (hw : s.wait = .awaitingPress) : execLdVxK x s = .next s := by
  simp only [execLdVxK, hw]

theorem execLdVxK_held (x : Reg) {s : State} {k : Key} (hw : s.wait = .awaitingRelease k) (hk : keyDown s k = true) :
    execLdVxK x s = .next s := by
  simp only [execLdVxK, hw, hk, if_true]

theorem execLdVxK_released (x : Reg) {s : State} {k : Key} (hw : s.wait = .awaitingRelease k)
    (hk : ¬ keyDown s k = true) :
    execLdVxK x s = .next (((s.setWait .idle).setV x (BitVec.ofNat 8 k.val)).advancePc) := by
  simp only [execLdVxK, hw, if_neg hk, writeReg]

/-! ## Setting DT commutes with the instructions that do not use it -/

theorem skipIf_setDT (s : State) (v : Byte) (c : Bool) : (s.setDT v).skipIf c = (s.skipIf c).setDT v := by
  cases c <;> rfl

/-- The end of an instruction that skips where `c` holds, from a state with another DT. -/
theorem next_skipIf_setDT {s t : State} (v : Byte) (c : Bool)
    (h : Host.Outcome.next (φ := Fault) (ρ := Refusal) (s.skipIf c) = .next t) :
    Host.Outcome.next (φ := Fault) (ρ := Refusal) ((s.setDT v).skipIf c) = .next (t.setDT v) := by
  injection h with h
  rw [skipIf_setDT, h]

theorem exec_setDT {i : Instr} {s t : State} (v : Byte) (hread : ∀ x, i ≠ .ldVxDt x) (hwrite : ∀ x, i ≠ .ldDtVx x)
    (h : exec i s = .next t) : exec i (s.setDT v) = .next (t.setDT v) := by
  have done : ∀ {u : State}, Host.Outcome.next (φ := Fault) (ρ := Refusal) u = .next t →
      exec i (s.setDT v) = .next (u.setDT v) → exec i (s.setDT v) = .next (t.setDT v) := by
    intro u hu hv
    injection hu with hu
    exact hu ▸ hv
  cases i with
  | ldVxDt x => exact absurd rfl (hread x)
  | ldDtVx x => exact absurd rfl (hwrite x)
  | ret =>
    rcases execRet_next h with ⟨j, hj, rfl⟩ | ⟨h0, rfl⟩
    · exact execRet_entry (s := s.setDT v) hj
    · exact execRet_empty (s := s.setDT v) h0
  | call nnn =>
    rcases execCall_next h with ⟨j, hj, rfl⟩ | ⟨hfull, rfl⟩
    · exact execCall_room (s := s.setDT v) nnn hj
    · exact execCall_full (s := s.setDT v) nnn hfull
  | drw x y n =>
    by_cases hn : n = 0 ∨ s.I.toNat + n ≤ 4096
    · exact done ((execDrw_ok x y hn).symm.trans h) (execDrw_ok (s := s.setDT v) x y hn)
    · have hpos : 0 < n := by omega
      have hout : 4096 < s.I.toNat + n := by omega
      exact done ((execDrw_fault x y hpos hout).symm.trans h) (execDrw_fault (s := s.setDT v) x y hpos hout)
  | ldB x =>
    rcases Nat.lt_or_ge 4096 (s.I.toNat + 3) with hout | hin
    · exact done ((execLdB_fault x hout).symm.trans h) (execLdB_fault (s := s.setDT v) x hout)
    · exact done ((execLdB_ok x hin).symm.trans h) (execLdB_ok (s := s.setDT v) x hin)
  | ldMemStore x =>
    rcases Nat.lt_or_ge (s.I.toNat + x.val) 4096 with hin | hout
    · exact done ((execLdMemStore_ok x hin).symm.trans h) (execLdMemStore_ok (s := s.setDT v) x hin)
    · exact done ((execLdMemStore_fault x hout).symm.trans h) (execLdMemStore_fault (s := s.setDT v) x hout)
  | ldMemLoad x =>
    rcases Nat.lt_or_ge (s.I.toNat + x.val) 4096 with hin | hout
    · exact done ((execLdMemLoad_ok x hin).symm.trans h) (execLdMemLoad_ok (s := s.setDT v) x hin)
    · exact done ((execLdMemLoad_fault x hout).symm.trans h) (execLdMemLoad_fault (s := s.setDT v) x hout)
  | ldVxK x =>
    cases hw : s.wait with
    | idle => exact done ((execLdVxK_idle x hw).symm.trans h) (execLdVxK_idle (s := s.setDT v) x hw)
    | awaitingPress =>
      exact done ((execLdVxK_awaitingPress x hw).symm.trans h) (execLdVxK_awaitingPress (s := s.setDT v) x hw)
    | awaitingRelease k =>
      by_cases hk : keyDown s k = true
      · exact done ((execLdVxK_held x hw hk).symm.trans h) (execLdVxK_held (s := s.setDT v) x hw hk)
      · exact done ((execLdVxK_released x hw hk).symm.trans h) (execLdVxK_released (s := s.setDT v) x hw hk)
  | seImm x kk => exact next_skipIf_setDT v (decide (reg s x = kk)) h
  | sneImm x kk => exact next_skipIf_setDT v (decide (reg s x ≠ kk)) h
  | seReg x y => exact next_skipIf_setDT v (decide (reg s x = reg s y)) h
  | sneReg x y => exact next_skipIf_setDT v (decide (reg s x ≠ reg s y)) h
  | skp x => exact next_skipIf_setDT v (keyNamedBy s x) h
  | sknp x => exact next_skipIf_setDT v (!keyNamedBy s x) h
  | cls | jp nnn | jpV0 nnn | ldImm x kk | addImm x kk | ldReg x y | orReg x y | andReg x y | xorReg x y | addReg x y
  | sub x y | shr x y | subn x y | shl x y | ldI nnn | addI x | rnd x kk | ldStVx x | ldF x => exact done h rfl

/-! ## The clauses of R18 -/

/-- Setting DT to what it is changes nothing, so an instruction that commutes with setting DT keeps it. -/
theorem exec_keeps_DT {i : Instr} {s t : State} (hwrite : ∀ x, i ≠ .ldDtVx x) (h : exec i s = .next t) :
    t.DT = s.DT := by
  by_cases hread : ∃ x, i = .ldVxDt x
  · obtain ⟨x, rfl⟩ := hread
    have ht : (s.setV x s.DT).advancePc = t := Host.Outcome.next.inj h
    rw [← ht, State.advancePc_DT, State.setV_DT]
  · have hsame : exec i s = .next (t.setDT s.DT) := exec_setDT s.DT (fun x hx => hread ⟨x, hx⟩) hwrite h
    have ht : t = t.setDT s.DT := Host.Outcome.next.inj (h.symm.trans hsame)
    rw [ht, State.setDT_DT]

/-- Fx15 overwrites whatever DT was. -/
theorem exec_ldDtVx_setDT (x : Reg) (s : State) (v : Byte) : exec (.ldDtVx x) (s.setDT v) = exec (.ldDtVx x) s := rfl

theorem exec_ignores_DT {i : Instr} {s t : State} (v : Byte) (hread : ∀ x, i ≠ .ldVxDt x) (h : exec i s = .next t) :
    ∃ u, exec i (s.setDT v) = .next u ∧ u.setDT 0#8 = t.setDT 0#8 := by
  by_cases hwrite : ∃ x, i = .ldDtVx x
  · obtain ⟨x, rfl⟩ := hwrite
    exact ⟨t, (exec_ldDtVx_setDT x s v).trans h, rfl⟩
  · exact ⟨t.setDT v, exec_setDT v hread (fun x hx => hwrite ⟨x, hx⟩) h, rfl⟩

theorem applyOp_keeps_DT {op : HostOp} {s t : State} (hadv : op ≠ .advance) (htick : op ≠ .tick)
    (h : applyOp op s = .next t) : t.DT = s.DT := by
  rcases applyOp_cases hadv h with ⟨-, rfl⟩ | ⟨-, ⟨rfl, -⟩ | ⟨k, p, -, rfl⟩ | ⟨c, -, -, rfl⟩⟩
  · rfl
  · exact absurd rfl htick
  · rfl
  · rfl

theorem applyOp_tick_running {s : State} (h : s.status = .running) :
    applyOp .tick s = .next ((s.setDT (decrement s.DT)).setST (decrement s.ST)) := by
  simp only [applyOp, tick, whileRunning, h]

theorem decrement_toNat (v : Byte) : (decrement v).toNat = v.toNat - 1 := by
  by_cases h : v = 0#8
  · subst h; rfl
  · rw [decrement, if_neg h]
    bv_omega

/-- Settles O51: Fx15 and Fx07 are read off their meanings and Tick off `decrement`; the two clauses about every other
instruction are `exec_setDT` at the DT there is and at another one. -/
theorem delayTimerIsTouchedOnlyByItsRules : Obligations.DelayTimerIsTouchedOnlyByItsRules := by
  refine ⟨fun i s t hwrite h => exec_keeps_DT hwrite h, fun op s t hadv htick h => applyOp_keeps_DT hadv htick h,
    fun x s => ⟨(s.setDT (reg s x)).advancePc, rfl, rfl⟩, fun s hs => ⟨_, applyOp_tick_running hs, ?_⟩,
    fun x s => ⟨(s.setV x s.DT).advancePc, rfl, ?_⟩, fun i s t v hread h => exec_ignores_DT v hread h⟩
  · rw [State.setST_DT, State.setDT_DT, decrement_toNat]
  · rw [reg_advancePc, reg_setV_self]

end Sys2Proof.Machine
end

section
/-! Jumps and the skips on an immediate (40_control_flow.md R50, R53, R54). What a conditional skip does is said once, of
`skipIf` at any condition: where it moves `pc`, and that it moves nothing else. -/

namespace Sys2Proof.Machine

/-! ## The encodings the rules name -/

theorem decode_packNNN_jp (nnn : Addr12) : decode (packNNN 0x1#4 nnn) = some (.jp nnn) := by
  simp [decode]

theorem decode_packXKK_seImm (x : Reg) (kk : Byte) : decode (packXKK 0x3#4 x kk) = some (.seImm x kk) := by
  simp [decode]

theorem decode_packXKK_sneImm (x : Reg) (kk : Byte) : decode (packXKK 0x4#4 x kk) = some (.sneImm x kk) := by
  simp [decode]

/-! ## A conditional skip (R12) -/

theorem skipIf_pc_of_holds (s : State) {c : Prop} [Decidable c] (h : c) :
    (s.skipIf (decide c)).pc = s.pc + 4#16 := by
  rw [State.skipIf_pc, if_pos (decide_eq_true h)]

theorem skipIf_pc_of_not (s : State) {c : Prop} [Decidable c] (h : ¬ c) :
    (s.skipIf (decide c)).pc = s.pc + 2#16 := by
  rw [State.skipIf_pc, if_neg (mt of_decide_eq_true h)]

theorem skipIf_changes_only_pc (s : State) (c : Bool) : s.skipIf c = { s with pc := (s.skipIf c).pc } := by
  cases c <;> rfl

/-! ## The obligations -/

/-- Settles O16: the target is `nnn` widened to a word, which keeps its value. -/
theorem jumpSetsPc : Obligations.JumpSetsPc := fun nnn s =>
  ⟨decode_packNNN_jp nnn, s.setPc (zext16 nnn), rfl, zext16_toNat nnn, rfl⟩

/-- Settles O19: both instructions are `skipIf`, SNE at the negated condition. -/
theorem immediateSkipsMovePcByFourOrTwo : Obligations.ImmediateSkipsMovePcByFourOrTwo := by
  intro x kk s
  refine ⟨decode_packXKK_seImm x kk, decode_packXKK_sneImm x kk, ?_, ?_⟩
  · exact ⟨s.skipIf (decide (reg s x = kk)), rfl, skipIf_pc_of_holds s, skipIf_pc_of_not s,
      skipIf_changes_only_pc s _⟩
  · exact ⟨s.skipIf (decide (reg s x ≠ kk)), rfl, skipIf_pc_of_holds s,
      fun heq => skipIf_pc_of_not s (not_not_intro heq), skipIf_changes_only_pc s _⟩

end Sys2Proof.Machine
end

section
/-! Register loads, the immediate add and the bitwise operations (41_alu.md R58 to R63). Each of these instructions is one
of the two shared ends, `writeReg` or `writeRegFlag`, at its own result. -/

namespace Sys2Proof.Machine

/-! ## The encodings the rules name -/

theorem decode_packXKK_ldImm (x : Reg) (kk : Byte) : decode (packXKK 0x6#4 x kk) = some (.ldImm x kk) := by
  simp [decode]

theorem decode_packXKK_addImm (x : Reg) (kk : Byte) : decode (packXKK 0x7#4 x kk) = some (.addImm x kk) := by
  simp [decode]

theorem decode_packXYN_family8 (x y : Reg) (n : BitVec 4) :
    decode (packXYN 0x8#4 x y n) = decode8 (packXYN 0x8#4 x y n) := by
  simp [decode]

theorem decode_packXYN_ldReg (x y : Reg) : decode (packXYN 0x8#4 x y 0x0#4) = some (.ldReg x y) := by
  simp [decode_packXYN_family8, decode8]

theorem decode_packXYN_orReg (x y : Reg) : decode (packXYN 0x8#4 x y 0x1#4) = some (.orReg x y) := by
  simp [decode_packXYN_family8, decode8]

theorem decode_packXYN_andReg (x y : Reg) : decode (packXYN 0x8#4 x y 0x2#4) = some (.andReg x y) := by
  simp [decode_packXYN_family8, decode8]

theorem decode_packXYN_xorReg (x y : Reg) : decode (packXYN 0x8#4 x y 0x3#4) = some (.xorReg x y) := by
  simp [decode_packXYN_family8, decode8]

/-! ## The shared ends have a next state, and it is the one Safety.lean describes -/

theorem writeReg_writesOnly (x : Reg) (r : Byte) (s : State) : ∃ t, writeReg x r s = .next t ∧ WritesOnly s t x r :=
  ⟨(s.setV x r).advancePc, rfl, writesOnly_setV s x r⟩

theorem writeRegFlag_writesWithFlag (x : Reg) (r f : Byte) (s : State) :
    ∃ t, writeRegFlag x r f s = .next t ∧ WritesWithFlag s t x r f :=
  ⟨(setResultFlag s x r f).advancePc, rfl, writesWithFlag_setResultFlag s x r f⟩

/-! ## The obligations -/

/-- Settles O21: all three end in `writeReg`, and a sum of bytes is the sum modulo 256. -/
theorem loadAddAndMoveWriteOnlyTheirRegister : Obligations.LoadAddAndMoveWriteOnlyTheirRegister := by
  intro x y kk s
  refine ⟨decode_packXKK_ldImm x kk, decode_packXKK_addImm x kk, decode_packXYN_ldReg x y,
    writeReg_writesOnly x kk s, ?_, writeReg_writesOnly x (reg s y) s⟩
  obtain ⟨t, hnext, honly⟩ := writeReg_writesOnly x (reg s x + kk) s
  exact ⟨t, reg s x + kk, hnext, BitVec.toNat_add (reg s x) kk, honly⟩

/-- Settles O22: all three end in `writeRegFlag` with the flag 0, which is written after the result. -/
theorem logicOperationsClearVF : Obligations.LogicOperationsClearVF := fun x y s =>
  ⟨decode_packXYN_orReg x y, decode_packXYN_andReg x y, decode_packXYN_xorReg x y,
    writeRegFlag_writesWithFlag x (reg s x ||| reg s y) 0#8 s,
    writeRegFlag_writesWithFlag x (reg s x &&& reg s y) 0#8 s,
    writeRegFlag_writesWithFlag x (reg s x ^^^ reg s y) 0#8 s⟩

end Sys2Proof.Machine
end

section
/-! The load of the index register (42_index_random.md R69). Writing I is the shared end `writeIndex`: what it does is said
once, of any address, and the instruction is it at `nnn` widened to a word. -/

namespace Sys2Proof.Machine

/-! ## The encoding the rule names -/

theorem decode_packNNN_ldI (nnn : Addr12) : decode (packNNN 0xA#4 nnn) = some (.ldI nnn) := by
  simp [decode]

/-! ## The write of I: its result and its frame -/

theorem writeIndex_writes_only_I_and_pc (a : Word) (s : State) :
    ∃ t, writeIndex a s = .next t ∧ t.I = a ∧ t.pc = s.pc + 2#16 ∧ t = { s with I := t.I, pc := t.pc } :=
  ⟨(s.setI a).advancePc, rfl, State.setI_I s a, State.advancePc_pc (s.setI a), rfl⟩

/-! ## The obligation -/

/-- Settles O26: the instruction writes `nnn` widened to a word, which keeps its value. -/
theorem loadIndexSetsI : Obligations.LoadIndexSetsI := by
  intro nnn s
  obtain ⟨t, hnext, hI, hpc, hframe⟩ := writeIndex_writes_only_I_and_pc (zext16 nnn) s
  have hvalue : t.I.toNat = nnn.toNat := by rw [hI, zext16_toNat]
  exact ⟨decode_packNNN_ldI nnn, t, hnext, hvalue, hpc, hframe⟩

end Sys2Proof.Machine
end

section
/-! Clearing the display (43_display.md R73). The instruction installs `blankDisplay`, whose
cells `cell_blankDisplay` gives, and moves `pc` on. -/

namespace Sys2Proof.Machine

/-! ## The encoding the rule names -/

theorem decode_cls_word : decode 0x00E0#16 = some .cls := by decide

/-! ## What the instruction answers, in every state -/

theorem exec_cls (s : State) : exec .cls s = .next (s.setDisp blankDisplay).advancePc := rfl

theorem cell_cleared (s : State) (x : Fin 64) (y : Fin 32) :
    cell (s.setDisp blankDisplay).advancePc.disp x y = false := by
  rw [State.advancePc_disp, State.setDisp_disp, cell_blankDisplay]

/-! ## The obligation -/

/-- Settles O14: the next state is the old one with a blank display and `pc` moved on. -/
theorem clearScreenClearsEveryCell : Obligations.ClearScreenClearsEveryCell := by
  refine ⟨decode_cls_word, fun s => ⟨(s.setDisp blankDisplay).advancePc, exec_cls s, ?cells, ?pc, ?frame⟩⟩
  case cells => exact cell_cleared s
  case pc => rw [State.advancePc_pc, State.setDisp_pc]
  case frame => rfl

end Sys2Proof.Machine
end

section
/-! The skips on a key and the moves between a register and a timer (44_keypad_timers.md R75 to R79). The key the skips
test is `keyNamedBy`, the latch of the low nibble; what a write of a timer does is said once for each, with its frame. -/

namespace Sys2Proof.Machine

/-! ## The encodings the rules name -/

theorem decode_packXKK_familyE (x : Reg) (kk : Byte) : decode (packXKK 0xE#4 x kk) = decodeE (packXKK 0xE#4 x kk) := by
  simp [decode]

theorem decode_packXKK_familyF (x : Reg) (kk : Byte) : decode (packXKK 0xF#4 x kk) = decodeF (packXKK 0xF#4 x kk) := by
  simp [decode]

theorem decode_packXKK_skp (x : Reg) : decode (packXKK 0xE#4 x 0x9E#8) = some (.skp x) := by
  simp [decode_packXKK_familyE, decodeE]

theorem decode_packXKK_sknp (x : Reg) : decode (packXKK 0xE#4 x 0xA1#8) = some (.sknp x) := by
  simp [decode_packXKK_familyE, decodeE]

theorem decode_packXKK_ldVxDt (x : Reg) : decode (packXKK 0xF#4 x 0x07#8) = some (.ldVxDt x) := by
  simp [decode_packXKK_familyF, decodeF]

theorem decode_packXKK_ldDtVx (x : Reg) : decode (packXKK 0xF#4 x 0x15#8) = some (.ldDtVx x) := by
  simp [decode_packXKK_familyF, decodeF]

theorem decode_packXKK_ldStVx (x : Reg) : decode (packXKK 0xF#4 x 0x18#8) = some (.ldStVx x) := by
  simp [decode_packXKK_familyF, decodeF]

/-! ## The latch a register names (R20) -/

theorem keyNamedBy_eq_key {s : State} {x : Reg} {k : Key} (hk : k.val = (reg s x).toNat % 16) :
    keyNamedBy s x = s.key[k.val] := by
  have hname : lowNibble (reg s x) = k := Fin.ext ((lowNibble_val (reg s x)).trans hk.symm)
  rw [keyNamedBy, hname, keyDown]

/-! ## The skips in terms of that latch -/

theorem exec_skp_of_key {s : State} {x : Reg} {k : Key} (hk : k.val = (reg s x).toNat % 16) :
    exec (.skp x) s = .next (s.skipIf (decide (s.key[k.val] = true))) := by
  rw [Bool.decide_eq_true, ← keyNamedBy_eq_key hk]
  rfl

theorem exec_sknp_of_key {s : State} {x : Reg} {k : Key} (hk : k.val = (reg s x).toNat % 16) :
    exec (.sknp x) s = .next (s.skipIf (decide (s.key[k.val] = false))) := by
  rw [Bool.decide_eq_false, ← keyNamedBy_eq_key hk]
  rfl

/-! ## The writes of the timers: their results and their frames -/

theorem exec_ldDtVx_writes_only_DT_and_pc (x : Reg) (s : State) :
    ∃ t, exec (.ldDtVx x) s = .next t ∧ t.DT = reg s x ∧ t.pc = s.pc + 2#16 ∧ t = { s with DT := t.DT, pc := t.pc } :=
  ⟨(s.setDT (reg s x)).advancePc, rfl, State.setDT_DT s (reg s x), State.advancePc_pc (s.setDT (reg s x)), rfl⟩

theorem exec_ldStVx_writes_only_ST_and_pc (x : Reg) (s : State) :
    ∃ t, exec (.ldStVx x) s = .next t ∧ t.ST = reg s x ∧ t.pc = s.pc + 2#16 ∧ t = { s with ST := t.ST, pc := t.pc } :=
  ⟨(s.setST (reg s x)).advancePc, rfl, State.setST_ST s (reg s x), State.advancePc_pc (s.setST (reg s x)), rfl⟩

/-! ## The obligations -/

/-- Settles O32: both instructions are `skipIf` at the latch that the low nibble names, SKP where it is set and SKNP
where it is clear. -/
theorem keySkipsTestTheNamedLatch : Obligations.KeySkipsTestTheNamedLatch := by
  intro x k s
  refine ⟨decode_packXKK_skp x, decode_packXKK_sknp x, fun hk => ⟨?skp, ?sknp⟩⟩
  case skp =>
    exact ⟨s.skipIf (decide (s.key[k.val] = true)), exec_skp_of_key hk, skipIf_pc_of_holds s,
      fun hup => skipIf_pc_of_not s (ne_true_of_eq_false hup), skipIf_changes_only_pc s _⟩
  case sknp =>
    exact ⟨s.skipIf (decide (s.key[k.val] = false)), exec_sknp_of_key hk, skipIf_pc_of_holds s,
      fun hdown => skipIf_pc_of_not s (ne_false_of_eq_true hdown), skipIf_changes_only_pc s _⟩

/-- Settles O33: Fx07 ends in `writeReg`, and Fx15 and Fx18 write their timer and move `pc` on. -/
theorem timerMovesCopyOneByte : Obligations.TimerMovesCopyOneByte := fun x s =>
  ⟨decode_packXKK_ldVxDt x, decode_packXKK_ldDtVx x, decode_packXKK_ldStVx x, writeReg_writesOnly x s.DT s,
    exec_ldDtVx_writes_only_DT_and_pc x s, exec_ldStVx_writes_only_ST_and_pc x s⟩

end Sys2Proof.Machine
end

section
/-! The glyph address (45_memory_ops.md R82). The instruction is the shared end `writeIndex` at `glyphAddress`, whose value
as a number is said here once. -/

namespace Sys2Proof.Machine

/-! ## The encoding the rule names -/

theorem decode_packXKK_ldF (x : Reg) : decode (packXKK 0xF#4 x 0x29#8) = some (.ldF x) := by
  simp [decode_packXKK_familyF, decodeF]

/-! ## The address of a glyph -/

/-- The largest address is 75, so the word holds the product exactly. -/
theorem glyphAddress_toNat (v : Byte) : (glyphAddress v).toNat = 5 * (v.toNat % 16) := by
  have hfits : 5 * (v.toNat % 16) < 2 ^ 16 := by omega
  rw [glyphAddress, lowNibble_val, Nat.zero_add, BitVec.toNat_ofNat, Nat.mod_eq_of_lt hfits]

/-! ## The obligation -/

/-- Settles O37: the instruction writes the glyph's address to I with `writeIndex`. -/
theorem glyphAddressIsFiveTimesTheDigit : Obligations.GlyphAddressIsFiveTimesTheDigit := by
  intro x s
  obtain ⟨t, hnext, hI, hpc, hframe⟩ := writeIndex_writes_only_I_and_pc (glyphAddress (reg s x)) s
  have hvalue : t.I.toNat = 5 * ((reg s x).toNat % 16) := by rw [hI, glyphAddress_toNat]
  exact ⟨decode_packXKK_ldF x, t, hnext, hvalue, hpc, hframe⟩

end Sys2Proof.Machine
end

section
/-! Tick and Render (60_exceptions.md R95, R97). The frame is blocks of equal length twice over: the display's rows, 192
bytes each, and in a row the cells' colour triples. Where an entry of such a concatenation stands is said once, of any
list of blocks, and used for the rows and for the cells. -/

namespace Sys2Proof.Machine

/-! ## Concatenated blocks of one length -/

/-- Entry `j` of block `i` stands at `i * n + j`. -/
theorem getElem?_flatMap_of_block {α β : Type} {f : α → List β} {n : Nat} (hlen : ∀ a, (f a).length = n) {j : Nat}
    (hj : j < n) {l : List α} {i : Nat} {a : α} (ha : l[i]? = some a) : (l.flatMap f)[i * n + j]? = (f a)[j]? := by
  induction l generalizing i with
  | nil => simp at ha
  | cons b rest ih =>
    rw [List.flatMap_cons]
    cases i with
    | zero =>
      have hab : b = a := by simpa using ha
      have hfirst : 0 * n + j < (f b).length := by rw [hlen, Nat.zero_mul, Nat.zero_add]; exact hj
      rw [List.getElem?_append_left hfirst, Nat.zero_mul, Nat.zero_add, hab]
    | succ i =>
      have hplace : (i + 1) * n + j = (f b).length + (i * n + j) := by rw [hlen, Nat.succ_mul]; omega
      rw [hplace, List.getElem?_append_right (Nat.le_add_right _ _), Nat.add_sub_cancel_left]
      exact ih (by simpa using ha)

theorem length_flatMap_of_blocks {α β : Type} {f : α → List β} {n : Nat} (hlen : ∀ a, (f a).length = n) (l : List α) :
    (l.flatMap f).length = l.length * n := by
  simp [List.length_flatMap, hlen]

/-! ## The rows of a frame -/

/-- The bytes that Render gives one row of the display. -/
def rowBytes (s : State) (row : Vector Bool 64) : List Byte :=
  row.toList.flatMap fun on => rgbBytes (cellColour s on)

theorem renderFrame_bytes (s : State) : (renderFrame s).bytes = s.disp.toList.flatMap (rowBytes s) := rfl

theorem length_rgbBytes (c : Config.Rgb) : (rgbBytes c).length = 3 := rfl

theorem length_rowBytes (s : State) (row : Vector Bool 64) : (rowBytes s row).length = 192 := by
  rw [rowBytes, length_flatMap_of_blocks fun on => length_rgbBytes (cellColour s on), Vector.length_toList]

theorem length_renderFrame_bytes (s : State) : (renderFrame s).bytes.length = 6144 := by
  rw [renderFrame_bytes, length_flatMap_of_blocks (length_rowBytes s), Vector.length_toList]

/-! ## The bytes of a cell -/

theorem getElem?_rowBytes (s : State) (row : Vector Bool 64) (x : Fin 64) {j : Nat} (hj : j < 3) :
    (rowBytes s row)[x.val * 3 + j]? = (rgbBytes (cellColour s row[x.val]))[j]? :=
  getElem?_flatMap_of_block (fun on => length_rgbBytes (cellColour s on)) hj (by simp)

theorem getElem?_renderFrame_bytes (s : State) (x : Fin 64) (y : Fin 32) {j : Nat} (hj : j < 3) :
    (renderFrame s).bytes[3 * (y.val * 64 + x.val) + j]? = (rgbBytes (cellColour s (cell s.disp x y)))[j]? := by
  have hplace : 3 * (y.val * 64 + x.val) + j = y.val * 192 + (x.val * 3 + j) := by omega
  have hrow : s.disp.toList[y.val]? = some s.disp[y.val] := by simp
  rw [hplace, renderFrame_bytes, getElem?_flatMap_of_block (length_rowBytes s) (by omega) hrow]
  exact getElem?_rowBytes s s.disp[y.val] x hj

/-! ## The obligations -/

/-- Settles O57: byte `j` of a cell's colour triple stands `j` bytes after the cell's offset, for `j` at 0, 1 and 2. -/
theorem renderMapsEachCellToItsColour : Obligations.RenderMapsEachCellToItsColour := by
  refine fun s => ⟨rfl, rfl, rfl, length_renderFrame_bytes s, ?cells⟩
  intro x y c hc
  have hbyte : ∀ j < 3, (renderFrame s).bytes[3 * (y.val * 64 + x.val) + j]? = (rgbBytes c)[j]? := by
    intro j hj
    rw [hc]
    exact getElem?_renderFrame_bytes s x y hj
  exact ⟨hbyte 0 (by decide), hbyte 1 (by decide), hbyte 2 (by decide)⟩

/-- Settles O56: both timers go through `decrement`, which is subtraction with floor 0. -/
theorem tickDecrementsBothTimersToZero : Obligations.TickDecrementsBothTimersToZero := by
  intro s hrun
  refine ⟨(s.setDT (decrement s.DT)).setST (decrement s.ST), applyOp_tick_running hrun, ?_⟩
  have hDT : ((s.setDT (decrement s.DT)).setST (decrement s.ST)).DT.toNat = s.DT.toNat - 1 := decrement_toNat s.DT
  have hST : ((s.setDT (decrement s.DT)).setST (decrement s.ST)).ST.toNat = s.ST.toNat - 1 := decrement_toNat s.ST
  exact ⟨fun _ => hDT, fun h0 => by rw [hDT, h0], fun _ => hST, fun h0 => by rw [hST, h0], rfl⟩

end Sys2Proof.Machine
end

section
/-! The encoding (30_encoding.md R42 to R46). A word is the packing of its own fields, so a row of the opcode map is the
encoder's row read backwards: `decode_encode` gives the map row by row, and the inversion of `decode` gives each word back
as the encoding of its instruction. -/

namespace Sys2Proof.Machine

/-! ## A word from the fields a row fixes -/

theorem packNNN_of_op {w : Word} {op : BitVec 4} (h : fieldOp w = op) : packNNN op (fieldNNN w) = w :=
  h ▸ packNNN_fields w

theorem packXKK_of_op {w : Word} {op : BitVec 4} (h : fieldOp w = op) : packXKK op (fieldX w) (fieldKK w) = w :=
  h ▸ packXKK_fields w

theorem packXKK_of_op_kk {w : Word} {op : BitVec 4} {kk : Byte} (h : fieldOp w = op) (hkk : fieldKK w = kk) :
    packXKK op (fieldX w) kk = w :=
  hkk ▸ packXKK_of_op h

theorem packXYN_of_op_n {w : Word} {op n : BitVec 4} (h : fieldOp w = op) (hn : fieldN w = n) :
    packXYN op (fieldX w) (fieldY w) n = w :=
  h ▸ hn ▸ packXYN_fields w

theorem encode_drw_fields {w : Word} (h : fieldOp w = 0xD#4) :
    encode (.drw (fieldX w) (fieldY w) (fieldN w).toNat) = w := by
  rw [encode, BitVec.ofNat_toNat, BitVec.setWidth_eq]
  exact packXYN_of_op_n h rfl

theorem wf_drw_fieldN (x y : Reg) (w : Word) : (Instr.drw x y (fieldN w).toNat).wf = true :=
  decide_eq_true (Nat.le_of_lt_succ (fieldN w).isLt)

/-! ## Decoding what was encoded -/

theorem decode_packXYN_seReg (x y : Reg) (n : BitVec 4) :
    decode (packXYN 0x5#4 x y n) = if n = 0#4 then some (.seReg x y) else none := by
  simp [decode]

theorem decode_packXYN_sneReg (x y : Reg) (n : BitVec 4) :
    decode (packXYN 0x9#4 x y n) = if n = 0#4 then some (.sneReg x y) else none := by
  simp [decode]

theorem decode_packNNN_call (nnn : Addr12) : decode (packNNN 0x2#4 nnn) = some (.call nnn) := by
  simp [decode]

theorem decode_packXYN_drw (x y : Reg) (n : BitVec 4) :
    decode (packXYN 0xD#4 x y n) = some (.drw x y n.toNat) := by
  simp [decode]

theorem decode_encode {i : Instr} (hi : i.wf = true) : decode (encode i) = some i := by
  cases i with
  | cls | ret => decide
  | jp nnn => exact decode_packNNN_jp nnn
  | call nnn => exact decode_packNNN_call nnn
  | ldI nnn => exact decode_packNNN_ldI nnn
  | jpV0 nnn => simp [encode, decode]
  | seImm x kk => exact decode_packXKK_seImm x kk
  | sneImm x kk => exact decode_packXKK_sneImm x kk
  | ldImm x kk => exact decode_packXKK_ldImm x kk
  | addImm x kk => exact decode_packXKK_addImm x kk
  | rnd x kk => simp [encode, decode]
  | seReg x y => exact decode_packXYN_seReg x y 0#4
  | sneReg x y => exact decode_packXYN_sneReg x y 0#4
  | ldReg x y | orReg x y | andReg x y | xorReg x y | addReg x y | sub x y | shr x y | subn x y | shl x y =>
    simp [encode, decode_packXYN_family8, decode8]
  | skp x | sknp x => simp [encode, decode_packXKK_familyE, decodeE]
  | ldVxDt x | ldDtVx x | ldStVx x | ldVxK x | addI x | ldF x | ldB x | ldMemStore x | ldMemLoad x =>
    simp [encode, decode_packXKK_familyF, decodeF]
  | drw x y n =>
    have hn : n < 2 ^ 4 := Nat.lt_succ_of_le (of_decide_eq_true hi)
    rw [encode, decode_packXYN_drw, BitVec.toNat_ofNat, Nat.mod_eq_of_lt hn]

/-- Settles O1: `decode_encode`, and the two bytes of a word join to the word again. -/
theorem decodeInvertsEncode : Obligations.DecodeInvertsEncode := by
  intro i hi
  refine ⟨decode_encode hi, fun rest => ?_⟩
  rw [encodeBytes, List.cons_append, List.cons_append, List.nil_append, decodeBytes, wordOfBytes_hiByte_loByte,
    decode_encode hi]

/-! ## The opcode map -/

theorem decode_of_encode_eq {w : Word} {i : Instr} (hi : i.wf = true) (h : encode i = w) : decode w = some i :=
  h ▸ decode_encode hi

/-- Settles O4: in each row the fixed fields make the word the encoding of the row's instruction. -/
theorem opcodeMapRows : Obligations.OpcodeMapRows := by
  intro w
  have opRow : ∀ {op : BitVec 4} {i : Instr}, i.wf = true → encode i = packNNN op (fieldNNN w) →
      fieldOp w = op → decode w = some i :=
    fun hi he hop => decode_of_encode_eq hi (he.trans (packNNN_of_op hop))
  have opKKRow : ∀ {op : BitVec 4} {i : Instr}, i.wf = true → encode i = packXKK op (fieldX w) (fieldKK w) →
      fieldOp w = op → decode w = some i :=
    fun hi he hop => decode_of_encode_eq hi (he.trans (packXKK_of_op hop))
  have selectorNRow : ∀ {op n : BitVec 4} {i : Instr}, i.wf = true →
      encode i = packXYN op (fieldX w) (fieldY w) n → fieldOp w = op → fieldN w = n → decode w = some i :=
    fun hi he hop hn => decode_of_encode_eq hi (he.trans (packXYN_of_op_n hop hn))
  have selectorKKRow : ∀ {op : BitVec 4} {kk : Byte} {i : Instr}, i.wf = true →
      encode i = packXKK op (fieldX w) kk → fieldOp w = op → fieldKK w = kk → decode w = some i :=
    fun hi he hop hkk => decode_of_encode_eq hi (he.trans (packXKK_of_op_kk hop hkk))
  exact ⟨fun h => decode_of_encode_eq rfl h.symm, fun h => decode_of_encode_eq rfl h.symm,
    opRow rfl rfl, opRow rfl rfl, opKKRow rfl rfl, opKKRow rfl rfl, selectorNRow rfl rfl, opKKRow rfl rfl,
    opKKRow rfl rfl, selectorNRow rfl rfl, selectorNRow rfl rfl, selectorNRow rfl rfl, selectorNRow rfl rfl,
    selectorNRow rfl rfl, selectorNRow rfl rfl, selectorNRow rfl rfl, selectorNRow rfl rfl, selectorNRow rfl rfl,
    selectorNRow rfl rfl, opRow rfl rfl, opRow rfl rfl, opKKRow rfl rfl,
    fun h => decode_of_encode_eq (wf_drw_fieldN _ _ w) (encode_drw_fields h),
    selectorKKRow rfl rfl, selectorKKRow rfl rfl, selectorKKRow rfl rfl, selectorKKRow rfl rfl,
    selectorKKRow rfl rfl, selectorKKRow rfl rfl, selectorKKRow rfl rfl, selectorKKRow rfl rfl,
    selectorKKRow rfl rfl, selectorKKRow rfl rfl, selectorKKRow rfl rfl⟩

/-- Settles O5: each word is the encoding of the instruction it stands for. -/
theorem exampleWordsDecode : Obligations.ExampleWordsDecode := by
  refine ⟨?_, ?_, ?_, ?_, ?_, ?_, ?_, ?_, ?_, ?_⟩ <;> exact decode_of_encode_eq (by decide) (by decide)

end Sys2Proof.Machine
end

section
/-! Every word that decodes is an encoding, and which words do not decode (30_encoding.md R44 to R46). Each family of
`decode` that has a selector is inverted by itself. -/

namespace Sys2Proof.Machine

/-! ## The families with a selector, inverted -/

theorem encode_of_decode0 {w : Word} {i : Instr} (h : decode0 w = some i) : i.wf = true ∧ encode i = w := by
  unfold decode0 at h
  split_ifs at h with hcls hret
  · cases h
    exact ⟨rfl, hcls.symm⟩
  · cases h
    exact ⟨rfl, hret.symm⟩

theorem encode_of_decode8 {w : Word} {i : Instr} (h : decode8 w = some i) :
    i.wf = true ∧ encode i = packXYN 0x8#4 (fieldX w) (fieldY w) (fieldN w) := by
  unfold decode8 at h
  split_ifs at h <;> cases h <;> exact ⟨rfl, by rw [‹fieldN w = _›]; rfl⟩

theorem encode_of_decodeE {w : Word} {i : Instr} (h : decodeE w = some i) :
    i.wf = true ∧ encode i = packXKK 0xE#4 (fieldX w) (fieldKK w) := by
  unfold decodeE at h
  split_ifs at h <;> cases h <;> exact ⟨rfl, by rw [‹fieldKK w = _›]; rfl⟩

theorem encode_of_decodeF {w : Word} {i : Instr} (h : decodeF w = some i) :
    i.wf = true ∧ encode i = packXKK 0xF#4 (fieldX w) (fieldKK w) := by
  unfold decodeF at h
  split_ifs at h <;> cases h <;> exact ⟨rfl, by rw [‹fieldKK w = _›]; rfl⟩

/-! ## The families by the first digit of the word -/

theorem decode_family0 {w : Word} (h : fieldOp w = 0x0#4) : decode w = decode0 w := by simp [decode, h]

theorem decode_family5 {w : Word} (h : fieldOp w = 0x5#4) :
    decode w = if fieldN w = 0x0#4 then some (.seReg (fieldX w) (fieldY w)) else none := by
  simp [decode, h]

theorem decode_family8 {w : Word} (h : fieldOp w = 0x8#4) : decode w = decode8 w := by simp [decode, h]

theorem decode_family9 {w : Word} (h : fieldOp w = 0x9#4) :
    decode w = if fieldN w = 0x0#4 then some (.sneReg (fieldX w) (fieldY w)) else none := by
  simp [decode, h]

theorem decode_familyE {w : Word} (h : fieldOp w = 0xE#4) : decode w = decodeE w := by simp [decode, h]

theorem decode_familyF {w : Word} (h : fieldOp w = 0xF#4) : decode w = decodeF w := by simp [decode, h]

theorem digit_cases : ∀ op : BitVec 4,
    op = 0x0#4 ∨ op = 0x1#4 ∨ op = 0x2#4 ∨ op = 0x3#4 ∨ op = 0x4#4 ∨ op = 0x5#4 ∨ op = 0x6#4 ∨ op = 0x7#4 ∨
      op = 0x8#4 ∨ op = 0x9#4 ∨ op = 0xA#4 ∨ op = 0xB#4 ∨ op = 0xC#4 ∨ op = 0xD#4 ∨ op = 0xE#4 ∨ op = 0xF#4 := by
  decide

/-- Where a word is known to be the encoding of `j`, what it decodes to is `j`. -/
theorem encode_of_decode_row {w : Word} {i j : Instr} (hj : j.wf = true) (he : encode j = w) (h : decode w = some i) :
    i.wf = true ∧ encode i = w := by
  have hij : j = i := Option.some.inj ((decode_of_encode_eq hj he).symm.trans h)
  exact hij ▸ ⟨hj, he⟩

theorem encode_of_decode {w : Word} {i : Instr} (h : decode w = some i) : i.wf = true ∧ encode i = w := by
  rcases digit_cases (fieldOp w) with op | op | op | op | op | op | op | op | op | op | op | op | op | op | op | op
  · exact encode_of_decode0 (decode_family0 op ▸ h)
  · exact encode_of_decode_row (j := .jp (fieldNNN w)) rfl (packNNN_of_op op) h
  · exact encode_of_decode_row (j := .call (fieldNNN w)) rfl (packNNN_of_op op) h
  · exact encode_of_decode_row (j := .seImm (fieldX w) (fieldKK w)) rfl (packXKK_of_op op) h
  · exact encode_of_decode_row (j := .sneImm (fieldX w) (fieldKK w)) rfl (packXKK_of_op op) h
  · rw [decode_family5 op] at h
    split at h
    · cases h
      exact ⟨rfl, packXYN_of_op_n op ‹_›⟩
    · cases h
  · exact encode_of_decode_row (j := .ldImm (fieldX w) (fieldKK w)) rfl (packXKK_of_op op) h
  · exact encode_of_decode_row (j := .addImm (fieldX w) (fieldKK w)) rfl (packXKK_of_op op) h
  · obtain ⟨hwf, henc⟩ := encode_of_decode8 (decode_family8 op ▸ h)
    exact ⟨hwf, henc.trans (packXYN_of_op_n op rfl)⟩
  · rw [decode_family9 op] at h
    split at h
    · cases h
      exact ⟨rfl, packXYN_of_op_n op ‹_›⟩
    · cases h
  · exact encode_of_decode_row (j := .ldI (fieldNNN w)) rfl (packNNN_of_op op) h
  · exact encode_of_decode_row (j := .jpV0 (fieldNNN w)) rfl (packNNN_of_op op) h
  · exact encode_of_decode_row (j := .rnd (fieldX w) (fieldKK w)) rfl (packXKK_of_op op) h
  · exact encode_of_decode_row (wf_drw_fieldN _ _ w) (encode_drw_fields op) h
  · obtain ⟨hwf, henc⟩ := encode_of_decodeE (decode_familyE op ▸ h)
    exact ⟨hwf, henc.trans (packXKK_of_op op)⟩
  · obtain ⟨hwf, henc⟩ := encode_of_decodeF (decode_familyF op ▸ h)
    exact ⟨hwf, henc.trans (packXKK_of_op op)⟩

/-! ## The rows of the opcode table -/

theorem encodesItsRow (i : Instr) : Laws.EncodesItsRow.Statement i := by
  cases i with
  | cls => exact Laws.EncodesItsRow.cls
  | ret => exact Laws.EncodesItsRow.ret
  | jp nnn => exact Laws.EncodesItsRow.jp nnn
  | jpV0 nnn => exact Laws.EncodesItsRow.jpV0 nnn
  | call nnn => exact Laws.EncodesItsRow.call nnn
  | seImm x kk => exact Laws.EncodesItsRow.seImm x kk
  | sneImm x kk => exact Laws.EncodesItsRow.sneImm x kk
  | seReg x y => exact Laws.EncodesItsRow.seReg x y
  | sneReg x y => exact Laws.EncodesItsRow.sneReg x y
  | ldImm x kk => exact Laws.EncodesItsRow.ldImm x kk
  | addImm x kk => exact Laws.EncodesItsRow.addImm x kk
  | ldReg x y => exact Laws.EncodesItsRow.ldReg x y
  | orReg x y => exact Laws.EncodesItsRow.orReg x y
  | andReg x y => exact Laws.EncodesItsRow.andReg x y
  | xorReg x y => exact Laws.EncodesItsRow.xorReg x y
  | addReg x y => exact Laws.EncodesItsRow.addReg x y
  | sub x y => exact Laws.EncodesItsRow.sub x y
  | shr x y => exact Laws.EncodesItsRow.shr x y
  | subn x y => exact Laws.EncodesItsRow.subn x y
  | shl x y => exact Laws.EncodesItsRow.shl x y
  | ldI nnn => exact Laws.EncodesItsRow.ldI nnn
  | addI x => exact Laws.EncodesItsRow.addI x
  | rnd x kk => exact Laws.EncodesItsRow.rnd x kk
  | drw x y n => exact Laws.EncodesItsRow.drw x y n
  | skp x => exact Laws.EncodesItsRow.skp x
  | sknp x => exact Laws.EncodesItsRow.sknp x
  | ldVxDt x => exact Laws.EncodesItsRow.ldVxDt x
  | ldDtVx x => exact Laws.EncodesItsRow.ldDtVx x
  | ldStVx x => exact Laws.EncodesItsRow.ldStVx x
  | ldVxK x => exact Laws.EncodesItsRow.ldVxK x
  | ldF x => exact Laws.EncodesItsRow.ldF x
  | ldB x => exact Laws.EncodesItsRow.ldB x
  | ldMemStore x => exact Laws.EncodesItsRow.ldMemStore x
  | ldMemLoad x => exact Laws.EncodesItsRow.ldMemLoad x

/-- Settles O2: `decode` inverted, and the law that every encoding has its row's fixed bits. -/
theorem encodeInvertsDecode : Obligations.EncodeInvertsDecode := by
  intro w i h
  obtain ⟨hwf, henc⟩ := encode_of_decode h
  have hrow : encode i &&& rowMask i = rowMatch i := encodesItsRow i
  exact ⟨hwf, henc, henc ▸ hrow⟩

/-! ## The unknown words (R45) -/

theorem decode0_eq_none (w : Word) : decode0 w = none ↔ w ≠ 0x00E0#16 ∧ w ≠ 0x00EE#16 := by
  simp [decode0, ite_eq_iff]

theorem decode8_eq_none (w : Word) :
    decode8 w = none ↔ fieldN w ∈ [0x8#4, 0x9#4, 0xA#4, 0xB#4, 0xC#4, 0xD#4, 0xF#4] := by
  have hdigit : ∀ n : BitVec 4, (n ≠ 0x0#4 ∧ n ≠ 0x1#4 ∧ n ≠ 0x2#4 ∧ n ≠ 0x3#4 ∧ n ≠ 0x4#4 ∧ n ≠ 0x5#4 ∧ n ≠ 0x6#4 ∧
      n ≠ 0x7#4 ∧ n ≠ 0xE#4) ↔ n ∈ [0x8#4, 0x9#4, 0xA#4, 0xB#4, 0xC#4, 0xD#4, 0xF#4] := by decide
  rw [← hdigit]
  simp [decode8, ite_eq_iff]

theorem decodeE_eq_none (w : Word) : decodeE w = none ↔ fieldKK w ≠ 0x9E#8 ∧ fieldKK w ≠ 0xA1#8 := by
  simp [decodeE, ite_eq_iff]

theorem decodeF_eq_none (w : Word) : decodeF w = none ↔
    fieldKK w ∉ [0x07#8, 0x0A#8, 0x15#8, 0x18#8, 0x1E#8, 0x29#8, 0x33#8, 0x55#8, 0x65#8] := by
  simp [decodeF, ite_eq_iff]

/-- Settles O3: family by family, only six of the sixteen have words that do not decode. -/
theorem unknownWordsAreTheListedOnes : Obligations.UnknownWordsAreTheListedOnes := by
  intro w
  rcases digit_cases (fieldOp w) with op | op | op | op | op | op | op | op | op | op | op | op | op | op | op | op
  · rw [decode_family0 op, decode0_eq_none]
    simp [op]
  · simp [decode, op]
  · simp [decode, op]
  · simp [decode, op]
  · simp [decode, op]
  · simp [decode_family5 op, op]
  · simp [decode, op]
  · simp [decode, op]
  · rw [decode_family8 op, decode8_eq_none]
    simp [op]
  · simp [decode_family9 op, op]
  · simp [decode, op]
  · simp [decode, op]
  · simp [decode, op]
  · simp [decode, op]
  · rw [decode_familyE op, decodeE_eq_none]
    simp [op]
  · rw [decode_familyF op, decodeF_eq_none]
    simp [op]

end Sys2Proof.Machine
end

section
/-! What an instruction does, said once (30_encoding.md R48, 10_state.md R12, 60_exceptions.md R89). Whether an instruction
raises a cause is a function of the state it begins in (`fatalCause`); where it raises none, the state after is its effect
on the fields other than `pc` (`effect`) with `pc` at the successor that Safety.lean tabulates. `exec_next_iff` ties both
to `exec`; the statements about every instruction follow from it. -/

namespace Sys2Proof.Machine

/-! ## The causes (R87) -/

/-- What the single-byte accesses of a block of `n` bytes at `I` raise (R32, R91). -/
def blockCause (s : State) (n : Nat) : Option Cause :=
  if n = 0 ∨ s.I.toNat + n ≤ 4096 then none else some (.addressFault (max s.I.toNat 4096))

/-- What an instruction raises. -/
def fatalCause (i : Instr) (s : State) : Option Cause :=
  match i with
  | .ret => if s.SP = 0#8 then some .stackUnderflow else none
  | .call _ => if s.SP.toNat = 16 then some .stackOverflow else none
  | .drw _ _ n => blockCause s n
  | .ldB _ => blockCause s 3
  | .ldMemStore x => blockCause s (x.val + 1)
  | .ldMemLoad x => blockCause s (x.val + 1)
  | _ => none

theorem blockCause_inside {s : State} {n : Nat} (h : n = 0 ∨ s.I.toNat + n ≤ 4096) : blockCause s n = none := if_pos h

theorem blockCause_outside {s : State} {n : Nat} (h : ¬ (n = 0 ∨ s.I.toNat + n ≤ 4096)) :
    blockCause s n = some (.addressFault (max s.I.toNat 4096)) := if_neg h

theorem inside_of_blockCause {s : State} {n : Nat} (h : blockCause s n = none) : n = 0 ∨ s.I.toNat + n ≤ 4096 := by
  by_contra hout
  rw [blockCause_outside hout] at h
  cases h

theorem blockCause_address {s : State} {n a : Nat} (h : blockCause s n = some (.addressFault a)) : 4096 ≤ a := by
  by_cases hin : n = 0 ∨ s.I.toNat + n ≤ 4096
  · rw [blockCause_inside hin] at h
    cases h
  · rw [blockCause_outside hin] at h
    cases h
    exact Nat.le_max_right _ _

/-- An address that an instruction's cause records is outside memory (R87). -/
theorem fatalCause_address {i : Instr} {s : State} {a : Nat} (h : fatalCause i s = some (.addressFault a)) :
    4096 ≤ a := by
  cases i with
  | ret | call nnn =>
    simp only [fatalCause] at h
    split at h <;> cases h
  | drw x y n | ldB x | ldMemStore x | ldMemLoad x => exact blockCause_address h
  | _ => cases h

/-! ## The effects -/

/-- What an instruction that raises nothing does to the fields other than `pc`. -/
def effect (i : Instr) (s : State) : State :=
  match i with
  | .cls => s.setDisp blankDisplay
  | .ret => s.setSP (s.SP - 1#8)
  | .call _ => (s.setStack (Fin.ofNat 16 s.SP.toNat) (s.pc + 2#16)).setSP (s.SP + 1#8)
  | .ldImm x kk => s.setV x kk
  | .addImm x kk => s.setV x (reg s x + kk)
  | .ldReg x y => s.setV x (reg s y)
  | .orReg x y => setResultFlag s x (reg s x ||| reg s y) 0#8
  | .andReg x y => setResultFlag s x (reg s x &&& reg s y) 0#8
  | .xorReg x y => setResultFlag s x (reg s x ^^^ reg s y) 0#8
  | .addReg x y => setResultFlag s x (reg s x + reg s y) (carryFlag (reg s x) (reg s y))
  | .sub x y => setResultFlag s x (reg s x - reg s y) (nonBorrowFlag (reg s x) (reg s y))
  | .shr x _ => setResultFlag s x (reg s x >>> 1) (lowBitFlag (reg s x))
  | .subn x y => setResultFlag s x (reg s y - reg s x) (nonBorrowFlag (reg s y) (reg s x))
  | .shl x _ => setResultFlag s x (reg s x <<< 1) (highBitFlag (reg s x))
  | .ldI nnn => s.setI (zext16 nnn)
  | .addI x => s.setI (s.I + (reg s x).setWidth 16)
  | .rnd x kk => s.countDraw.setV x (Config.randomByte s.draws &&& kk)
  | .drw x y n =>
    (s.setDisp (drawRows (reg s x).toNat (reg s y).toNat (blockAt s.mem s.I.toNat n) ⟨s.disp, false⟩).disp).setV VF
      (boolByte (drawRows (reg s x).toNat (reg s y).toNat (blockAt s.mem s.I.toNat n) ⟨s.disp, false⟩).hit)
  | .ldVxDt x => s.setV x s.DT
  | .ldDtVx x => s.setDT (reg s x)
  | .ldStVx x => s.setST (reg s x)
  | .ldVxK x =>
    match s.wait with
    | .idle => s.setWait .awaitingPress
    | .awaitingPress => s
    | .awaitingRelease k => if keyDown s k then s else (s.setWait .idle).setV x (BitVec.ofNat 8 k.val)
  | .ldF x => s.setI (glyphAddress (reg s x))
  | .ldB x => s.setMem (storeImage s.mem s.I.toNat (bcdDigits (reg s x)))
  | .ldMemStore x => (s.setMem (storeImage s.mem s.I.toNat (regsThrough s x))).setI (indexAfterBlock s x)
  | .ldMemLoad x =>
    (s.setRegs (loadRegs (blockAt s.mem s.I.toNat (x.val + 1)) s.V)).setI (indexAfterBlock s x)
  | .jp _ | .jpV0 _ | .seImm _ _ | .sneImm _ _ | .seReg _ _ | .sneReg _ _ | .skp _ | .sknp _ => s

/-- The state an instruction leaves when it raises nothing. -/
def completed (i : Instr) (s : State) : State := (effect i s).setPc (successorPc i s)

/-- The next state of an instruction: completed, or halted with everything else as it was (R89). -/
def after (i : Instr) (s : State) : State :=
  match fatalCause i s with
  | none => completed i s
  | some c => s.setStatus (.halted c)

theorem after_completed {i : Instr} {s : State} (h : fatalCause i s = none) : after i s = completed i s := by
  rw [after, h]

theorem after_fatal {i : Instr} {s : State} {c : Cause} (h : fatalCause i s = some c) :
    after i s = s.setStatus (.halted c) := by
  rw [after, h]

/-! ## The successor of `pc` (R12) -/

theorem skipIf_eq_setPc (s : State) (c : Prop) [Decidable c] : s.skipIf (decide c) = s.setPc (skipTarget s c) := by
  by_cases hc : c
  · rw [State.skipIf, if_pos (decide_eq_true hc), skipTarget, if_pos hc]
  · rw [State.skipIf, if_neg (mt of_decide_eq_true hc), skipTarget, if_neg hc]
    rfl

theorem keyNamedBy_eq_getD (s : State) (x : Reg) :
    keyNamedBy s x = s.key.toList.getD ((reg s x).toNat % 16) false := by
  have hlt : (reg s x).toNat % 16 < 16 := Nat.mod_lt _ (by decide)
  have hlen : (reg s x).toNat % 16 < s.key.toList.length := by rwa [Vector.length_toList]
  rw [keyNamedBy_eq_key (k := ⟨(reg s x).toNat % 16, hlt⟩) rfl, List.getD_eq_getElem _ _ hlen, Vector.getElem_toList]

theorem successorPc_ret {s : State} {j : Fin 16} (h : s.SP.toNat = j.val + 1) : successorPc .ret s = s.stack[j.val] := by
  have hget : successorPc .ret s = s.stack.toList.getD (s.SP.toNat - 1) 0#16 := rfl
  have hlen : j.val < s.stack.toList.length := by rw [Vector.length_toList]; exact j.isLt
  rw [hget, h, Nat.add_sub_cancel, List.getD_eq_getElem _ _ hlen, Vector.getElem_toList]

theorem successorPc_ldVxK_none (x : Reg) {s : State} (h : s.candidate = none) : successorPc (.ldVxK x) s = s.pc := by
  rw [successorPc.eq_def]
  simp only [h]

theorem successorPc_ldVxK_some (x : Reg) {s : State} {k : Key} (h : s.candidate = some k) :
    successorPc (.ldVxK x) s = if keyDown s k then s.pc else s.pc + 2#16 := by
  rw [successorPc.eq_def]
  simp only [h]

theorem completed_eq_advancePc {i : Instr} {s : State} (hsucc : successorPc i s = s.pc + 2#16)
    (hpc : (effect i s).pc = s.pc) : completed i s = (effect i s).advancePc := by
  rw [completed, hsucc, ← hpc]
  rfl

/-! ## `exec` in these words -/

theorem exec_ret_eq_after {s : State} (h : s.SP.toNat ≤ 16) : exec .ret s = .next (after .ret s) := by
  by_cases h0 : s.SP = 0#8
  · rw [after_fatal (i := .ret) (if_pos h0)]
    exact execRet_empty h0
  · have hpos : s.SP.toNat ≠ 0 := fun hz => h0 (BitVec.eq_of_toNat_eq (by simpa using hz))
    obtain ⟨j, hj⟩ : ∃ j : Fin 16, s.SP.toNat = j.val + 1 := ⟨⟨s.SP.toNat - 1, by omega⟩, by simp; omega⟩
    rw [after_completed (i := .ret) (if_neg h0), completed, successorPc_ret hj]
    exact execRet_entry hj

theorem exec_call_eq_after (nnn : Addr12) {s : State} (h : s.SP.toNat ≤ 16) :
    exec (.call nnn) s = .next (after (.call nnn) s) := by
  rcases Nat.lt_or_eq_of_le h with hlt | hfull
  · have hj : s.SP.toNat = (Fin.ofNat 16 s.SP.toNat).val := (Nat.mod_eq_of_lt hlt).symm
    rw [after_completed (i := .call nnn) (if_neg (Nat.ne_of_lt hlt))]
    exact execCall_room nnn hj
  · rw [after_fatal (i := .call nnn) (if_pos hfull)]
    exact execCall_full nnn hfull

theorem completed_ldVxK_idle (x : Reg) {s : State} (hw : s.wait = .idle) :
    completed (.ldVxK x) s = s.setWait .awaitingPress := by
  rw [completed, successorPc_ldVxK_none x (by rw [State.candidate, hw])]
  simp only [effect, hw]
  rfl

theorem completed_ldVxK_awaitingPress (x : Reg) {s : State} (hw : s.wait = .awaitingPress) :
    completed (.ldVxK x) s = s := by
  rw [completed, successorPc_ldVxK_none x (by rw [State.candidate, hw])]
  simp only [effect, hw]
  rfl

theorem completed_ldVxK_held (x : Reg) {s : State} {k : Key} (hw : s.wait = .awaitingRelease k)
    (hk : keyDown s k = true) : completed (.ldVxK x) s = s := by
  rw [completed, successorPc_ldVxK_some x (k := k) (by rw [State.candidate, hw]), if_pos hk]
  simp only [effect, hw, if_pos hk]
  rfl

theorem completed_ldVxK_released (x : Reg) {s : State} {k : Key} (hw : s.wait = .awaitingRelease k)
    (hk : ¬ keyDown s k = true) :
    completed (.ldVxK x) s = ((s.setWait .idle).setV x (BitVec.ofNat 8 k.val)).advancePc := by
  rw [completed, successorPc_ldVxK_some x (k := k) (by rw [State.candidate, hw]), if_neg hk]
  simp only [effect, hw, if_neg hk]
  rfl

theorem exec_ldVxK_eq_after (x : Reg) (s : State) : exec (.ldVxK x) s = .next (after (.ldVxK x) s) := by
  rw [after_completed rfl]
  cases hw : s.wait with
  | idle =>
    rw [completed_ldVxK_idle x hw]
    exact execLdVxK_idle x hw
  | awaitingPress =>
    rw [completed_ldVxK_awaitingPress x hw]
    exact execLdVxK_awaitingPress x hw
  | awaitingRelease k =>
    by_cases hk : keyDown s k = true
    · rw [completed_ldVxK_held x hw hk]
      exact execLdVxK_held x hw hk
    · rw [completed_ldVxK_released x hw hk]
      exact execLdVxK_released x hw hk

/-- An instruction that accesses `n` bytes at `I`, from its two laws. -/
theorem exec_block_eq_after {i : Instr} {s : State} {n : Nat} (hcause : fatalCause i s = blockCause s n)
    (hok : n = 0 ∨ s.I.toNat + n ≤ 4096 → exec i s = .next (completed i s))
    (hfault : ¬ (n = 0 ∨ s.I.toNat + n ≤ 4096) →
      exec i s = .next (s.setStatus (.halted (.addressFault (max s.I.toNat 4096))))) :
    exec i s = .next (after i s) := by
  by_cases hin : n = 0 ∨ s.I.toNat + n ≤ 4096
  · rw [after_completed (hcause.trans (blockCause_inside hin)), hok hin]
  · rw [after_fatal (hcause.trans (blockCause_outside hin)), hfault hin]

/-- An instruction has the next state `after` names, unless it would use the stack at an SP that R16 rules out. -/
theorem exec_eq_after {i : Instr} {s : State} (h : usesStack i → s.SP.toNat ≤ 16) : exec i s = .next (after i s) := by
  cases i with
  | ret => exact exec_ret_eq_after (h (.inl rfl))
  | call nnn => exact exec_call_eq_after nnn (h (.inr ⟨nnn, rfl⟩))
  | drw x y n =>
    exact exec_block_eq_after rfl (fun hin => execDrw_ok x y hin) fun hout => execDrw_fault x y (by omega) (by omega)
  | ldB x =>
    exact exec_block_eq_after rfl (fun hin => execLdB_ok x (by omega)) fun hout => execLdB_fault x (by omega)
  | ldMemStore x =>
    exact exec_block_eq_after rfl (fun hin => execLdMemStore_ok x (by omega)) fun hout =>
      execLdMemStore_fault x (by omega)
  | ldMemLoad x =>
    have hdone : completed (.ldMemLoad x) s = (effect (.ldMemLoad x) s).advancePc :=
      completed_eq_advancePc rfl (by rw [effect, State.setI_pc, State.setRegs_pc])
    exact exec_block_eq_after rfl (fun hin => hdone ▸ execLdMemLoad_ok x (by omega)) fun hout =>
      execLdMemLoad_fault x (by omega)
  | ldVxK x => exact exec_ldVxK_eq_after x s
  | seImm x kk => exact congrArg _ (skipIf_eq_setPc s (reg s x = kk))
  | sneImm x kk => exact congrArg _ (skipIf_eq_setPc s (reg s x ≠ kk))
  | seReg x y => exact congrArg _ (skipIf_eq_setPc s (reg s x = reg s y))
  | sneReg x y => exact congrArg _ (skipIf_eq_setPc s (reg s x ≠ reg s y))
  | skp x =>
    have hkey : keyNamedBy s x = decide (s.key.toList.getD ((reg s x).toNat % 16) false = true) := by
      rw [Bool.decide_eq_true, keyNamedBy_eq_getD]
    exact congrArg _ ((congrArg s.skipIf hkey).trans (skipIf_eq_setPc s _))
  | sknp x =>
    have hkey : (!keyNamedBy s x) = decide (s.key.toList.getD ((reg s x).toNat % 16) false = false) := by
      rw [Bool.decide_eq_false, keyNamedBy_eq_getD]
    exact congrArg _ ((congrArg s.skipIf hkey).trans (skipIf_eq_setPc s _))
  | _ => rfl

/-- A next state needs a legal SP where the stack is used. -/
theorem SP_legal_of_exec_next {i : Instr} {s t : State} (h : exec i s = .next t) (hi : usesStack i) :
    s.SP.toNat ≤ 16 := by
  rcases hi with rfl | ⟨nnn, rfl⟩
  · rcases execRet_next h with ⟨j, hj, -⟩ | ⟨h0, -⟩
    · omega
    · rw [h0]
      decide
  · rcases execCall_next h with ⟨j, hj, -⟩ | ⟨hfull, -⟩ <;> omega

theorem exec_next_iff {i : Instr} {s t : State} :
    exec i s = .next t ↔ (usesStack i → s.SP.toNat ≤ 16) ∧ t = after i s := by
  constructor
  · intro h
    have hSP := SP_legal_of_exec_next h
    exact ⟨hSP, Host.Outcome.next.inj (h.symm.trans (exec_eq_after hSP))⟩
  · rintro ⟨hSP, rfl⟩
    exact exec_eq_after hSP

/-- A next state is the completed instruction's, or it is halted and differs in the status alone. -/
theorem exec_next_cases {i : Instr} {s t : State} (h : exec i s = .next t) :
    (fatalCause i s = none ∧ t = completed i s) ∨ ∃ c, fatalCause i s = some c ∧ t = s.setStatus (.halted c) := by
  obtain ⟨-, rfl⟩ := exec_next_iff.1 h
  cases hc : fatalCause i s with
  | none => exact .inl ⟨rfl, after_completed hc⟩
  | some c => exact .inr ⟨c, rfl, after_fatal hc⟩

end Sys2Proof.Machine
end

section
/-! The frames of the instructions and of the host operations: which fields each of them leaves as they were (10_state.md
R9 to R23, 20_memory.md R32, 44_keypad_timers.md R81). For the instructions they are read off `effect`. -/

namespace Sys2Proof.Machine

/-! ## The effect of Fx0A (R80) -/

theorem effect_ldVxK_cases (x : Reg) (s : State) :
    effect (.ldVxK x) s = s.setWait .awaitingPress ∨ effect (.ldVxK x) s = s ∨
      ∃ k : Key, effect (.ldVxK x) s = (s.setWait .idle).setV x (BitVec.ofNat 8 k.val) := by
  simp only [effect]
  split
  · exact .inl rfl
  · exact .inr (.inl rfl)
  · rename_i k _
    split
    · exact .inr (.inl rfl)
    · exact .inr (.inr ⟨k, rfl⟩)

/-- A field that neither `setWait` nor `setV` writes is left alone by Fx0A. -/
theorem effect_ldVxK_keeps {α : Type} {f : State → α} (x : Reg) (s : State) (hwait : ∀ w, f (s.setWait w) = f s)
    (hV : ∀ (u : State) (v : Byte), f (u.setV x v) = f u) : f (effect (.ldVxK x) s) = f s := by
  rcases effect_ldVxK_cases x s with h | h | ⟨k, h⟩
  · rw [h, hwait]
  · rw [h]
  · rw [h, hV, hwait]

/-! ## The fields an effect leaves alone -/

theorem effect_status (i : Instr) (s : State) : (effect i s).status = s.status := by
  cases i with
  | ldVxK x => exact effect_ldVxK_keeps x s (fun _ => rfl) fun _ _ => rfl
  | ldMemLoad x => simp [effect]
  | _ => rfl

theorem effect_key (i : Instr) (s : State) : (effect i s).key = s.key := by
  cases i with
  | ldVxK x => exact effect_ldVxK_keeps x s (fun _ => rfl) fun _ _ => rfl
  | ldMemLoad x => simp [effect]
  | _ => rfl

theorem effect_diag (i : Instr) (s : State) : (effect i s).diag = s.diag := by
  cases i with
  | ldVxK x => exact effect_ldVxK_keeps x s (fun _ => rfl) fun _ _ => rfl
  | ldMemLoad x => simp [effect]
  | _ => rfl

theorem effect_disp {i : Instr} (hi : ¬ mutatesDisplay i) (s : State) : (effect i s).disp = s.disp := by
  cases i with
  | cls => exact absurd (.inl rfl) hi
  | drw x y n => exact absurd (.inr ⟨x, y, n, rfl⟩) hi
  | ldVxK x => exact effect_ldVxK_keeps x s (fun _ => rfl) fun _ _ => rfl
  | ldMemLoad x => simp [effect]
  | _ => rfl

theorem effect_mem {i : Instr} (hi : ¬ storesToMemory i) (s : State) : (effect i s).mem = s.mem := by
  cases i with
  | ldB x => exact absurd ⟨x, .inl rfl⟩ hi
  | ldMemStore x => exact absurd ⟨x, .inr rfl⟩ hi
  | ldVxK x => exact effect_ldVxK_keeps x s (fun _ => rfl) fun _ _ => rfl
  | ldMemLoad x => simp [effect]
  | _ => rfl

theorem effect_SP {i : Instr} (hi : ¬ usesStack i) (s : State) : (effect i s).SP = s.SP := by
  cases i with
  | ret => exact absurd (.inl rfl) hi
  | call nnn => exact absurd (.inr ⟨nnn, rfl⟩) hi
  | ldVxK x => exact effect_ldVxK_keeps x s (fun _ => rfl) fun _ _ => rfl
  | ldMemLoad x => simp [effect]
  | _ => rfl

theorem effect_stack {i : Instr} (hi : ¬ usesStack i) (s : State) : (effect i s).stack = s.stack := by
  cases i with
  | ret => exact absurd (.inl rfl) hi
  | call nnn => exact absurd (.inr ⟨nnn, rfl⟩) hi
  | ldVxK x => exact effect_ldVxK_keeps x s (fun _ => rfl) fun _ _ => rfl
  | ldMemLoad x => simp [effect]
  | _ => rfl

theorem effect_wait {i : Instr} (hi : ∀ x, i ≠ .ldVxK x) (s : State) : (effect i s).wait = s.wait := by
  cases i with
  | ldVxK x => exact absurd rfl (hi x)
  | ldMemLoad x => simp [effect]
  | _ => rfl

/-! ## The registers an effect leaves alone (R9, R10) -/

theorem reg_setResultFlag_ne (s : State) {x r : Reg} (v f : Byte) (h : ¬ (r = x ∨ r = VF)) :
    reg (setResultFlag s x v f) r = reg s r := by
  obtain ⟨hx, hVF⟩ := not_or.1 h
  rw [reg_setResultFlag, if_neg hVF, if_neg hx]

theorem reg_effect {i : Instr} {r : Reg} (hr : ¬ mayWriteReg i r) (s : State) : reg (effect i s) r = reg s r := by
  cases i with
  | ldImm x kk => exact reg_setV_ne s _ hr
  | addImm x kk => exact reg_setV_ne s _ hr
  | ldReg x y => exact reg_setV_ne s _ hr
  | rnd x kk => exact reg_setV_ne s.countDraw _ hr
  | ldVxDt x => exact reg_setV_ne s _ hr
  | orReg x y | andReg x y | xorReg x y | addReg x y | sub x y | shr x y | subn x y | shl x y =>
    exact reg_setResultFlag_ne s _ _ hr
  | drw x y n => exact reg_setV_ne (s.setDisp _) _ hr
  | ldVxK x => exact effect_ldVxK_keeps (f := fun u => reg u r) x s (fun _ => rfl) fun u v => reg_setV_ne u v hr
  | ldMemLoad x =>
    have hbeyond : x.val + 1 ≤ r.val := Nat.lt_of_not_le hr
    rw [effect, reg_setI, reg_loadRegs, blockAt_getD_beyond s.mem _ hbeyond]
  | _ => rfl

/-! ## The frames of `exec` -/

/-- A field that the effect and `setPc` leave alone, and `setStatus` too, is left alone by the instruction. -/
theorem exec_keeps {α : Type} {f : State → α} {i : Instr} {s t : State} (h : exec i s = .next t)
    (heffect : f (effect i s) = f s) (hpc : ∀ (u : State) (a : Word), f (u.setPc a) = f u)
    (hstatus : ∀ r, f (s.setStatus r) = f s) : f t = f s := by
  rcases exec_next_cases h with ⟨-, rfl⟩ | ⟨c, -, rfl⟩
  · rw [completed, hpc, heffect]
  · exact hstatus _

theorem exec_keeps_disp {i : Instr} {s t : State} (hi : ¬ mutatesDisplay i) (h : exec i s = .next t) :
    t.disp = s.disp :=
  exec_keeps (f := State.disp) h (effect_disp hi s) (fun _ _ => rfl) fun _ => rfl

theorem exec_keeps_mem {i : Instr} {s t : State} (hi : ¬ storesToMemory i) (h : exec i s = .next t) : t.mem = s.mem :=
  exec_keeps (f := State.mem) h (effect_mem hi s) (fun _ _ => rfl) fun _ => rfl

theorem exec_keeps_SP {i : Instr} {s t : State} (hi : ¬ usesStack i) (h : exec i s = .next t) : t.SP = s.SP :=
  exec_keeps (f := State.SP) h (effect_SP hi s) (fun _ _ => rfl) fun _ => rfl

theorem exec_keeps_stack {i : Instr} {s t : State} (hi : ¬ usesStack i) (h : exec i s = .next t) :
    t.stack = s.stack :=
  exec_keeps (f := State.stack) h (effect_stack hi s) (fun _ _ => rfl) fun _ => rfl

theorem exec_keeps_key {i : Instr} {s t : State} (h : exec i s = .next t) : t.key = s.key :=
  exec_keeps (f := State.key) h (effect_key i s) (fun _ _ => rfl) fun _ => rfl

theorem exec_keeps_diag {i : Instr} {s t : State} (h : exec i s = .next t) : t.diag = s.diag :=
  exec_keeps (f := State.diag) h (effect_diag i s) (fun _ _ => rfl) fun _ => rfl

theorem exec_keeps_wait {i : Instr} {s t : State} (hi : ∀ x, i ≠ .ldVxK x) (h : exec i s = .next t) :
    t.wait = s.wait :=
  exec_keeps (f := State.wait) h (effect_wait hi s) (fun _ _ => rfl) fun _ => rfl

/-! ## The frames of the host operations (R95 to R98) -/

/-- No host operation but Advance changes the program's part of the state. -/
theorem applyOp_keeps_program_state {op : HostOp} {s t : State} (ho : op ≠ .advance) (h : applyOp op s = .next t) :
    t.pc = s.pc ∧ t.SP = s.SP ∧ t.stack = s.stack ∧ t.disp = s.disp ∧ t.mem = s.mem ∧ t.diag = s.diag ∧
      t.status = s.status := by
  rcases applyOp_cases ho h with ⟨-, rfl⟩ | ⟨-, ⟨-, rfl⟩ | ⟨k, p, -, rfl⟩ | ⟨c, -, -, rfl⟩⟩ <;>
    exact ⟨rfl, rfl, rfl, rfl, rfl, rfl, rfl⟩

/-- No host operation but KeyEvent and Advance changes the keypad latches or the input-wait sub-state. -/
theorem applyOp_keeps_keypad {op : HostOp} {s t : State} (ho : op ≠ .advance) (hk : ∀ k p, op ≠ .keyEvent k p)
    (h : applyOp op s = .next t) : t.key = s.key ∧ t.wait = s.wait := by
  rcases applyOp_cases ho h with ⟨-, rfl⟩ | ⟨-, ⟨-, rfl⟩ | ⟨k, p, rfl, -⟩ | ⟨c, -, -, rfl⟩⟩
  · exact ⟨rfl, rfl⟩
  · exact ⟨rfl, rfl⟩
  · exact absurd rfl (hk k p)
  · exact ⟨rfl, rfl⟩

theorem applyOp_keyEvent_running (k : Key) (p : Bool) {s : State} (h : s.status = .running) :
    applyOp (.keyEvent k p) s = .next ((s.setKey k p).setWait (waitAfterKey k p s.wait)) := by
  simp only [applyOp, keyEvent, whileRunning, h]

theorem waiting_waitAfterKey (k : Key) (p : Bool) (s u : State) :
    (u.setWait (waitAfterKey k p s.wait)).waiting = s.waiting := by
  cases hw : s.wait <;> cases p <;> simp [State.waiting, waitAfterKey, hw]

theorem candidate_waitAfterKey (k : Key) (p : Bool) (s u : State) :
    (u.setWait (waitAfterKey k p s.wait)).candidate =
      if p = true ∧ s.waiting = true ∧ s.candidate = none then some k else s.candidate := by
  cases hw : s.wait <;> cases p <;> simp [State.waiting, State.candidate, waitAfterKey, hw]

/-! ## The obligations -/

/-- Settles O48: of the effects only those of 00E0 and Dxyn set the display. -/
theorem onlyDrawAndClearMutateTheDisplay : Obligations.OnlyDrawAndClearMutateTheDisplay := by
  refine ⟨fun i s t hi h => exec_keeps_disp hi h, fun op s t ho h => ?_⟩
  obtain ⟨-, -, -, hdisp, -⟩ := applyOp_keeps_program_state ho h
  exact hdisp

/-- Settles O49: of the effects only those of Fx33 and Fx55 set memory, and only those of 2nnn and 00EE set SP or the
stack. -/
theorem onlyTheirInstructionsTouchMemoryAndStack : Obligations.OnlyTheirInstructionsTouchMemoryAndStack := by
  refine ⟨fun i s t h => ⟨fun hi => exec_keeps_mem hi h, fun hi => ⟨exec_keeps_SP hi h, exec_keeps_stack hi h⟩⟩,
    fun op s t ho h => ?_⟩
  obtain ⟨-, hSP, hstack, -, hmem, -⟩ := applyOp_keeps_program_state ho h
  exact ⟨hmem, hSP, hstack⟩

/-- Settles O54: each effect writes no register that `mayWriteReg` does not allow it. -/
theorem instructionsWriteOnlyTheirRegisters : Obligations.InstructionsWriteOnlyTheirRegisters :=
  fun _ s _ r h hr => exec_keeps (f := fun u => reg u r) h (reg_effect hr s) (fun _ _ => rfl) fun _ => rfl

/-- Settles O35: the key event is read off `waitAfterKey`, and no other operation and no other effect sets the
sub-state. -/
theorem inputWaitTable : Obligations.InputWaitTable := by
  refine ⟨fun k p s hrun => ⟨_, applyOp_keyEvent_running k p hrun, ?key, waiting_waitAfterKey k p s _,
    candidate_waitAfterKey k p s _, rfl⟩, fun s t op ho hk h => (applyOp_keeps_keypad ho hk h).2,
    fun i s t hi h => exec_keeps_wait hi h⟩
  intro j
  simp only [eq_comm (a := j)]
  exact keyDown_setKey s k j p

end Sys2Proof.Machine
end

section
/-! The invariants that every step keeps: canonical memory with a legal SP, the bounds on `pc` and the return addresses,
and Fx0A at `pc` while the machine waits (10_state.md R14, R16, 44_keypad_timers.md R80). Each is shown of an instruction
from `effect` and `successorPc`, of an Advance by `advance_cases`, and of a step by `step_cases`. -/

namespace Sys2Proof.Machine

/-! ## Canonical memory and a legal SP -/

/-- The effect of a store is an image inside memory. -/
theorem effect_mem_wf {i : Instr} {s : State} (hm : s.mem.wf = true) (hc : fatalCause i s = none) :
    (effect i s).mem.wf = true := by
  by_cases hi : storesToMemory i
  · obtain ⟨x, rfl | rfl⟩ := hi
    · have hin := inside_of_blockCause hc
      exact storeImage_wf hm (by rw [bcdDigits_length]; omega)
    · have hin := inside_of_blockCause hc
      exact storeImage_wf hm (by rw [regsThrough_length]; omega)
  · rw [effect_mem hi]
    exact hm

/-- A completed 00EE found SP above 0. -/
theorem SP_pos_of_ret {s : State} (hc : fatalCause .ret s = none) : 0 < s.SP.toNat := by
  have h0 : s.SP ≠ 0#8 := by
    intro h0
    have : fatalCause .ret s = some .stackUnderflow := if_pos h0
    rw [this] at hc
    cases hc
  bv_omega

/-- A completed 2nnn found SP below 16. -/
theorem SP_room_of_call {nnn : Addr12} {s : State} (hc : fatalCause (.call nnn) s = none) (hSP : s.SP.toNat ≤ 16) :
    s.SP.toNat < 16 := by
  rcases Nat.lt_or_eq_of_le hSP with hlt | hfull
  · exact hlt
  · have : fatalCause (.call nnn) s = some .stackOverflow := if_pos hfull
    rw [this] at hc
    cases hc

theorem SP_after_ret {s : State} (hpos : 0 < s.SP.toNat) : (effect .ret s).SP.toNat = s.SP.toNat - 1 := by
  show (s.SP - 1#8).toNat = _
  bv_omega

theorem SP_after_call (nnn : Addr12) {s : State} (hroom : s.SP.toNat < 16) :
    (effect (.call nnn) s).SP.toNat = s.SP.toNat + 1 := by
  show (s.SP + 1#8).toNat = _
  bv_omega

theorem effect_SP_legal {i : Instr} {s : State} (hSP : s.SP.toNat ≤ 16) (hc : fatalCause i s = none) :
    (effect i s).SP.toNat ≤ 16 := by
  by_cases hi : usesStack i
  · rcases hi with rfl | ⟨nnn, rfl⟩
    · rw [SP_after_ret (SP_pos_of_ret hc)]
      omega
    · have hroom := SP_room_of_call hc hSP
      rw [SP_after_call nnn hroom]
      omega
  · rw [effect_SP hi]
    exact hSP

theorem exec_keeps_inv {i : Instr} {s t : State} (hs : s.inv) (h : exec i s = .next t) : t.inv := by
  obtain ⟨hm, hSP⟩ := hs
  rcases exec_next_cases h with ⟨hc, rfl⟩ | ⟨c, -, rfl⟩
  · exact ⟨effect_mem_wf hm hc, effect_SP_legal hSP hc⟩
  · exact ⟨hm, hSP⟩

theorem advance_keeps_inv {s t : State} (hs : s.inv) (h : advance s = .next t) : t.inv := by
  obtain ⟨-, ⟨-, rfl⟩ | ⟨-, w, -, ⟨-, rfl⟩ | ⟨i, -, hexec⟩⟩⟩ := advance_cases h
  · exact hs
  · exact hs
  · exact exec_keeps_inv hs hexec

/-- Settles O45: completed stores lie inside memory, and completed calls and returns found SP where they may. -/
theorem stepKeepsMemoryAndStackPointerLegal : Obligations.StepKeepsMemoryAndStackPointerLegal := by
  intro s t hs h
  rcases step_cases h with hadv | ⟨op, ho, hother⟩
  · exact advance_keeps_inv ((takeOp_inv s).2 hs) hadv
  · obtain ⟨-, hSP, -, -, hmem, -⟩ := applyOp_keeps_program_state ho hother
    rw [State.inv, hSP, hmem]
    exact (takeOp_inv s).2 hs

/-! ## The bounds on `pc` and the return addresses (R14) -/

/-- From a fetchable address no sum of a step wraps. -/
theorem fetchable_add_toNat_le {a : Word} {k : Nat} (ha : a.toNat + 1 < 4096) (hk : k ≤ 4) :
    (a + BitVec.ofNat 16 k).toNat ≤ 4094 + k := by
  rw [BitVec.toNat_add, BitVec.toNat_ofNat]
  omega

theorem skipTarget_le {s : State} (hpc : s.pc.toNat + 1 < 4096) (c : Prop) [Decidable c] :
    (skipTarget s c).toNat ≤ 0x10FE := by
  have h2 := fetchable_add_toNat_le (k := 2) hpc (by decide)
  have h4 := fetchable_add_toNat_le (k := 4) hpc (by decide)
  rw [skipTarget]
  split
  · exact h4.trans (by decide)
  · exact h2.trans (by decide)

theorem jumpTarget_le (nnn : Addr12) (v : Byte) : (nnn.setWidth 16 + v.setWidth 16 : Word).toNat ≤ 0x10FE := by
  have hnnn := nnn.isLt
  have hv := v.isLt
  rw [BitVec.toNat_add, BitVec.toNat_setWidth, BitVec.toNat_setWidth]
  omega

/-- `0xFFF + 0xFF` is the largest successor of a fetchable `pc`, a return address in use being at most `0x1000`. -/
theorem successorPc_le {i : Instr} {s : State} (hs : s.pcBounded) (hpc : s.pc.toNat + 1 < 4096)
    (hc : fatalCause i s = none) (hSP : usesStack i → s.SP.toNat ≤ 16) : (successorPc i s).toNat ≤ 0x10FE := by
  have hnext : (s.pc + 2#16).toNat ≤ 0x10FE := (fetchable_add_toNat_le (k := 2) hpc (by decide)).trans (by decide)
  cases i with
  | jp nnn | call nnn => exact (zext16_toNat nnn).le.trans (by have := nnn.isLt; omega)
  | jpV0 nnn => exact jumpTarget_le nnn _
  | ret =>
    have hpos := SP_pos_of_ret hc
    have hle := hSP (.inl rfl)
    obtain ⟨j, hj⟩ : ∃ j : Fin 16, s.SP.toNat = j.val + 1 := ⟨⟨s.SP.toNat - 1, by omega⟩, by simp; omega⟩
    rw [successorPc_ret hj]
    exact (hs.2 j (by omega)).trans (by decide)
  | seImm x kk | sneImm x kk | seReg x y | sneReg x y | skp x | sknp x => exact skipTarget_le hpc _
  | ldVxK x =>
    cases hcand : s.candidate with
    | none =>
      rw [successorPc_ldVxK_none x hcand]
      exact hs.1
    | some k =>
      rw [successorPc_ldVxK_some x hcand]
      split
      · exact hs.1
      · exact hnext
  | _ => exact hnext

/-- What the stack holds after a completed instruction: 2nnn pushes an address that follows an instruction. -/
theorem effect_stack_bounded {i : Instr} {s : State} (hs : s.pcBounded) (hpc : s.pc.toNat + 1 < 4096)
    (hc : fatalCause i s = none) (hSP : usesStack i → s.SP.toNat ≤ 16) (j : Fin 16)
    (hj : j.val < (effect i s).SP.toNat) : (effect i s).stack[j.val].toNat ≤ 0x1000 := by
  by_cases hi : usesStack i
  · have hle := hSP hi
    rcases hi with rfl | ⟨nnn, rfl⟩
    · rw [SP_after_ret (SP_pos_of_ret hc)] at hj
      exact hs.2 j (by omega)
    · have hroom := SP_room_of_call hc hle
      rw [SP_after_call nnn hroom] at hj
      have hpush : (effect (.call nnn) s).stack[j.val] =
          if s.SP.toNat % 16 = j.val then s.pc + 2#16 else s.stack[j.val] :=
        Vector.getElem_set (Fin.isLt _) j.isLt
      rw [hpush]
      split
      · exact fetchable_add_toNat_le (k := 2) hpc (by decide)
      · exact hs.2 j (by omega)
  · rw [effect_SP hi] at hj
    simp only [effect_stack hi]
    exact hs.2 j hj

theorem exec_keeps_pcBounded {i : Instr} {s t : State} (hs : s.pcBounded) (hpc : s.pc.toNat + 1 < 4096)
    (h : exec i s = .next t) : t.pcBounded := by
  have hSP := SP_legal_of_exec_next h
  rcases exec_next_cases h with ⟨hc, rfl⟩ | ⟨c, -, rfl⟩
  · exact ⟨successorPc_le hs hpc hc hSP, effect_stack_bounded hs hpc hc hSP⟩
  · exact hs

theorem advance_keeps_pcBounded {s t : State} (hs : s.pcBounded) (h : advance s = .next t) : t.pcBounded := by
  obtain ⟨-, ⟨-, rfl⟩ | ⟨hpc, w, -, ⟨-, rfl⟩ | ⟨i, -, hexec⟩⟩⟩ := advance_cases h
  · exact hs
  · exact ⟨(fetchable_add_toNat_le (k := 2) hpc (by decide)).trans (by decide), hs.2⟩
  · exact exec_keeps_pcBounded hs hpc hexec

/-- Settles O46: an instruction is fetched from below 4095, so `pc` grows to 0x1002 at most, and by a jump to 0x10FE. -/
theorem stepKeepsPcBounded : Obligations.StepKeepsPcBounded := by
  intro s t hs h
  have hs' := (takeOp_pcBounded s).2 hs
  rcases step_cases h with hadv | ⟨op, ho, hother⟩
  · exact advance_keeps_pcBounded hs' hadv
  · obtain ⟨hpc, hSP, hstack, -⟩ := applyOp_keeps_program_state ho hother
    simp only [State.pcBounded, hpc, hSP, hstack]
    exact hs'

/-! ## Fx0A at `pc` while the machine waits (R80) -/

/-- The invariant speaks of the sub-state, of memory and of `pc` only. -/
theorem waitsAtFx0A_congr {s t : State} (hs : s.waitsAtFx0A) (hwait : t.waiting = s.waiting) (hmem : t.mem = s.mem)
    (hpc : t.pc = s.pc) : t.waitsAtFx0A := by
  rw [State.waitsAtFx0A, hwait, hmem, hpc]
  exact hs

theorem waiting_congr {s t : State} (h : t.wait = s.wait) : t.waiting = s.waiting := by
  simp only [State.waiting, h]

/-- A machine that waits is at an Fx0A, so it is not at any other word. -/
theorem not_waiting_of_decode {s : State} {w : Word} (hs : s.waitsAtFx0A) (hf : fetch s.mem s.pc = .ok w)
    (hw : ∀ x, decode w ≠ some (.ldVxK x)) : s.waiting = false := by
  by_contra hwaiting
  obtain ⟨w', x, hf', hd⟩ := hs (Bool.eq_true_of_not_eq_false hwaiting)
  have hww : w = w' := Except.ok.inj (hf.symm.trans hf')
  exact hw x (hww ▸ hd)

theorem waitsAtFx0A_of_not_waiting {t : State} (h : t.waiting = false) : t.waitsAtFx0A := by
  intro hwaiting
  rw [h] at hwaiting
  cases hwaiting

/-- Fx0A leaves the machine idle, or at the same word. -/
theorem exec_ldVxK_waitsAtFx0A {x : Reg} {s t : State} {w : Word} (hf : fetch s.mem s.pc = .ok w)
    (hd : decode w = some (.ldVxK x)) (h : exec (.ldVxK x) s = .next t) : t.waitsAtFx0A := by
  have hhere : ∀ {u : State}, Host.Outcome.next (φ := Fault) (ρ := Refusal) u = .next t → u.mem = s.mem → u.pc = s.pc →
      t.waitsAtFx0A := by
    intro u hu hmem hpc _
    rw [← Host.Outcome.next.inj hu, hmem, hpc]
    exact ⟨w, x, hf, hd⟩
  cases hw : s.wait with
  | idle => exact hhere ((execLdVxK_idle x hw).symm.trans h) rfl rfl
  | awaitingPress => exact hhere ((execLdVxK_awaitingPress x hw).symm.trans h) rfl rfl
  | awaitingRelease k =>
    by_cases hk : keyDown s k = true
    · exact hhere ((execLdVxK_held x hw hk).symm.trans h) rfl rfl
    · have ht := Host.Outcome.next.inj ((execLdVxK_released x hw hk).symm.trans h)
      exact waitsAtFx0A_of_not_waiting (by rw [← ht]; rfl)

theorem advance_keeps_waitsAtFx0A {s t : State} (hs : s.waitsAtFx0A) (h : advance s = .next t) : t.waitsAtFx0A := by
  obtain ⟨-, ⟨-, rfl⟩ | ⟨-, w, hf, ⟨hd, rfl⟩ | ⟨i, hd, hexec⟩⟩⟩ := advance_cases h
  · exact hs
  · have hidle : s.waiting = false := not_waiting_of_decode hs hf fun x hx => by
      rw [hd] at hx
      cases hx
    exact waitsAtFx0A_of_not_waiting ((waiting_congr rfl).trans hidle)
  · by_cases hi : ∃ x, i = .ldVxK x
    · obtain ⟨x, rfl⟩ := hi
      exact exec_ldVxK_waitsAtFx0A hf hd hexec
    · have hother : ∀ x, i ≠ .ldVxK x := fun x hx => hi ⟨x, hx⟩
      have hidle : s.waiting = false := not_waiting_of_decode hs hf fun x hx =>
        hother x (Option.some.inj (hd.symm.trans hx))
      exact waitsAtFx0A_of_not_waiting ((waiting_congr (exec_keeps_wait hother hexec)).trans hidle)

theorem applyOp_keeps_waiting {op : HostOp} {s t : State} (ho : op ≠ .advance) (h : applyOp op s = .next t) :
    t.waiting = s.waiting := by
  rcases applyOp_cases ho h with ⟨-, rfl⟩ | ⟨-, ⟨-, rfl⟩ | ⟨k, p, -, rfl⟩ | ⟨c, -, -, rfl⟩⟩
  · rfl
  · rfl
  · exact waiting_waitAfterKey k p s _
  · rfl

/-- Settles O47: only Fx0A begins a wait, it leaves `pc` at itself until the wait ends, and nothing else runs there. -/
theorem stepKeepsWaitingAtFx0A : Obligations.StepKeepsWaitingAtFx0A := by
  intro s t hs h
  have hs' := (takeOp_waitsAtFx0A s).2 hs
  rcases step_cases h with hadv | ⟨op, ho, hother⟩
  · exact advance_keeps_waitsAtFx0A hs' hadv
  · obtain ⟨hpc, -, -, -, hmem, -⟩ := applyOp_keeps_program_state ho hother
    exact waitsAtFx0A_congr hs' (applyOp_keeps_waiting ho hother) hmem hpc

end Sys2Proof.Machine
end

section
/-! Rules of the whole machine: what a fatal Advance changes, that an Advance always has a next state, the successor of
`pc`, what the log and the status do, and what no instruction reads (10_state.md R12, R19 to R24, 60_exceptions.md R88 to
R93). -/

namespace Sys2Proof.Machine

/-! ## An Advance that halts (R89, R91) -/

/-- An Advance that leaves the machine halted took a fatal cause in the state it began in. -/
theorem advance_halts {s t : State} (h : advance s = .next t) (ht : t.status ≠ .running) :
    ∃ c, t = s.setStatus (.halted c) ∧ ∀ a, c = .addressFault a → 4096 ≤ a := by
  obtain ⟨hrun, ⟨-, rfl⟩ | ⟨-, w, -, ⟨-, rfl⟩ | ⟨i, -, hexec⟩⟩⟩ := advance_cases h
  · refine ⟨_, rfl, fun a ha => ?_⟩
    rw [← Cause.addressFault.inj ha]
    exact Nat.le_max_right _ _
  · exact absurd hrun ht
  · rcases exec_next_cases hexec with ⟨-, rfl⟩ | ⟨c, hc, rfl⟩
    · exact absurd ((effect_status i s).trans hrun) ht
    · exact ⟨c, rfl, fun a ha => fatalCause_address (ha ▸ hc)⟩

theorem advanceResult_of_halted {s t : State} {c : Cause} (h : advance s = .next t) (ht : t.status = .halted c) :
    advanceResult s = .fatal c := by
  rw [advanceResult, h]
  simp only [ht]

/-- Settles O11: the only ways to halt are the fetch fault and an instruction's cause, and both set the status alone. -/
theorem fatalAdvanceChangesOnlyTheStatus : Obligations.FatalAdvanceChangesOnlyTheStatus := by
  intro s t c _ h ht
  obtain ⟨c', hframe, haddress⟩ := advance_halts h (by rw [ht]; exact nofun)
  have hc : c' = c := by
    rw [hframe, State.setStatus_status] at ht
    exact RunStatus.halted.inj ht
  subst hc
  exact ⟨hframe, haddress, advanceResult_of_halted h ht⟩

/-- Settles O12: the fetch fault and the report are next states, and an instruction has one where SP is legal. -/
theorem runningAdvanceHasANextState : Obligations.RunningAdvanceHasANextState := by
  rintro s ⟨-, hSP⟩ hrun
  rw [advance_running hrun]
  rcases advanceRunning_cases s with ⟨-, hfault⟩ | ⟨-, w, -, ⟨-, hreport⟩ | ⟨i, -, hexec⟩⟩
  · exact ⟨_, hfault⟩
  · exact ⟨_, hreport⟩
  · exact ⟨after i s, hexec.trans (exec_eq_after fun _ => hSP)⟩

/-! ## The successor of `pc` (R12) -/

theorem advance_unknown {s t : State} {w : Word} (h : advance s = .next t) (hf : fetch s.mem s.pc = .ok w)
    (hd : decode w = none) : t = (s.appendDiag ⟨s.pc, w⟩).advancePc := by
  have hrun := (advance_cases h).1
  rw [advance_running hrun, advanceRunning_unknown hf hd] at h
  exact (Host.Outcome.next.inj h).symm

/-- Settles O53: a completed instruction's `pc` is `successorPc` by definition, and a halt keeps `pc`. -/
theorem pcSuccessorFollowsTheTable : Obligations.PcSuccessorFollowsTheTable := by
  refine ⟨fun i s t _ h ht => ?exec, fun s t w h hf hd => ?unknown, fun s t h ht => ?halts⟩
  case exec =>
    rcases exec_next_cases h with ⟨-, rfl⟩ | ⟨c, -, rfl⟩
    · rfl
    · cases ht
  case unknown =>
    rw [advance_unknown h hf hd]
    rfl
  case halts =>
    obtain ⟨c, rfl, -⟩ := advance_halts h ht
    rfl

/-! ## The log and the status (R23) -/

theorem advance_extends_diag {s t : State} (h : advance s = .next t) : ∃ more, t.diag = s.diag ++ more := by
  obtain ⟨-, ⟨-, rfl⟩ | ⟨-, w, -, ⟨-, rfl⟩ | ⟨i, -, hexec⟩⟩⟩ := advance_cases h
  · exact ⟨[], (List.append_nil _).symm⟩
  · exact ⟨[⟨s.pc, w⟩], rfl⟩
  · exact ⟨[], (exec_keeps_diag hexec).trans (List.append_nil _).symm⟩

/-- Settles O55: only the report appends to the log, an Advance begins running, and no other operation sets the status. -/
theorem diagGrowsAndStatusChangesOnce : Obligations.DiagGrowsAndStatusChangesOnce := by
  intro s t h
  rcases step_cases h with hadv | ⟨op, ho, hother⟩
  · refine ⟨takeOp_diag s ▸ advance_extends_diag hadv, fun c hc => ?_⟩
    have hrun : s.status = .running := takeOp_status s ▸ (advance_cases hadv).1
    rw [hrun] at hc
    cases hc
  · obtain ⟨-, -, -, -, -, hdiag, hstatus⟩ := applyOp_keeps_program_state ho hother
    rw [takeOp_diag] at hdiag
    rw [takeOp_status] at hstatus
    exact ⟨⟨[], hdiag.trans (List.append_nil _).symm⟩, fun c hc => hstatus.trans hc⟩

/-! ## What no instruction reads

A change of the state that the instruction's cause and its completion commute with commutes with the instruction. -/

theorem after_commutes {f : State → State} {i : Instr} {s : State} (hcause : fatalCause i (f s) = fatalCause i s)
    (hdone : completed i (f s) = f (completed i s)) (hhalt : ∀ r, (f s).setStatus r = f (s.setStatus r)) :
    after i (f s) = f (after i s) := by
  cases hc : fatalCause i s with
  | none => rw [after_completed hc, after_completed (hcause.trans hc), hdone]
  | some c => rw [after_fatal hc, after_fatal (hcause.trans hc), hhalt]

/-- The keypad latches as a whole (R20). -/
def withKeys (keys : Vector Bool 16) (s : State) : State := { s with key := keys }

theorem fatalCause_withKeys (keys : Vector Bool 16) (i : Instr) (s : State) :
    fatalCause i (withKeys keys s) = fatalCause i s := by
  cases i with
  | _ => rfl

theorem completed_withKeys (keys : Vector Bool 16) {i : Instr}
    (hi : ∀ x, i ≠ .skp x ∧ i ≠ .sknp x ∧ i ≠ .ldVxK x) (s : State) :
    completed i (withKeys keys s) = withKeys keys (completed i s) := by
  cases i with
  | skp x => exact absurd rfl (hi x).1
  | sknp x => exact absurd rfl (hi x).2.1
  | ldVxK x => exact absurd rfl (hi x).2.2
  | _ => rfl

theorem exec_withKeys {keys : Vector Bool 16} {i : Instr} {s t : State}
    (hi : ∀ x, i ≠ .skp x ∧ i ≠ .sknp x ∧ i ≠ .ldVxK x) (h : exec i s = .next t) :
    exec i (withKeys keys s) = .next (withKeys keys t) := by
  obtain ⟨hSP, rfl⟩ := exec_next_iff.1 h
  have hcommutes : after i (withKeys keys s) = withKeys keys (after i s) :=
    after_commutes (fatalCause_withKeys keys i s) (completed_withKeys keys hi s) fun _ => rfl
  exact exec_next_iff.2 ⟨hSP, hcommutes.symm⟩

/-- Settles O50: no effect sets a latch, and the effects of all but three instructions commute with setting them. -/
theorem latchesChangeOnlyByKeyEvent : Obligations.LatchesChangeOnlyByKeyEvent :=
  ⟨fun _ _ _ h => exec_keeps_key h, fun _ _ _ ho hk h => (applyOp_keeps_keypad ho hk h).1,
    fun _ _ _ _ hi h => exec_withKeys hi h⟩

/-- The three fields that only the host sees (R19, R23, R24). -/
def withHostFields (v : Byte) (d : List DiagRecord) (c : Option Colours) (s : State) : State :=
  { s with ST := v, diag := d, colours := c }

theorem withHostFields_withHostFields (v v' : Byte) (d d' : List DiagRecord) (c c' : Option Colours) (s : State) :
    withHostFields v d c (withHostFields v' d' c' s) = withHostFields v d c s := rfl

theorem fatalCause_withHostFields (v : Byte) (d : List DiagRecord) (c : Option Colours) (i : Instr) (s : State) :
    fatalCause i (withHostFields v d c s) = fatalCause i s := by
  cases i with
  | _ => rfl

theorem completed_ldVxK_withHostFields (v : Byte) (d : List DiagRecord) (c : Option Colours) (x : Reg) (s : State) :
    completed (.ldVxK x) (withHostFields v d c s) = withHostFields v d c (completed (.ldVxK x) s) := by
  cases hw : s.wait with
  | idle =>
    rw [completed_ldVxK_idle x hw]
    exact completed_ldVxK_idle x hw
  | awaitingPress =>
    rw [completed_ldVxK_awaitingPress x hw]
    exact completed_ldVxK_awaitingPress x hw
  | awaitingRelease k =>
    by_cases hk : keyDown s k = true
    · rw [completed_ldVxK_held x hw hk]
      exact completed_ldVxK_held x hw hk
    · rw [completed_ldVxK_released x hw hk]
      exact completed_ldVxK_released x hw hk

/-- Fx18 overwrites ST whatever it was; of every other instruction the two completions differ as the states before did. -/
theorem completed_ignores_hostFields (v v' : Byte) (d d' : List DiagRecord) (c c' : Option Colours) (i : Instr)
    (s : State) :
    withHostFields v' d' c' (completed i (withHostFields v d c s)) = withHostFields v' d' c' (completed i s) := by
  cases i with
  | ldVxK x => rw [completed_ldVxK_withHostFields, withHostFields_withHostFields]
  | _ => rfl

theorem after_ignores_hostFields (v v' : Byte) (d d' : List DiagRecord) (c c' : Option Colours) (i : Instr)
    (s : State) : withHostFields v' d' c' (after i (withHostFields v d c s)) = withHostFields v' d' c' (after i s) := by
  have hcause := fatalCause_withHostFields v d c i s
  cases hc : fatalCause i s with
  | none => rw [after_completed hc, after_completed (hcause.trans hc), completed_ignores_hostFields]
  | some cause =>
    rw [after_fatal hc, after_fatal (hcause.trans hc)]
    rfl

/-- Settles O52: the cause and the effect of an instruction read none of the three fields. -/
theorem programsCannotSeeHostOnlyState : Obligations.ProgramsCannotSeeHostOnlyState := by
  intro i s t v d c h
  obtain ⟨hSP, rfl⟩ := exec_next_iff.1 h
  exact ⟨after i (withHostFields v d c s), exec_next_iff.2 ⟨hSP, rfl⟩, after_ignores_hostFields v 0#8 d [] c none i s⟩

end Sys2Proof.Machine
end

section
/-! The instruction cycle (20_memory.md R30, 30_encoding.md R48, 60_exceptions.md R89 to R99): fetch, what an Advance and a
step are in each case, and the host's order. -/

namespace Sys2Proof.Machine

/-! ## Fetch (R30) -/

theorem wordOfBytes_toNat (hi lo : Byte) : (wordOfBytes hi lo).toNat = hi.toNat * 256 + lo.toNat := by
  rw [wordOfBytes, BitVec.toNat_append, ← Nat.shiftLeft_add_eq_or_of_lt lo.isLt, Nat.shiftLeft_eq]

/-- Settles O7: the first faulting address is `max pc 4096`, and the word is the concatenation of its two bytes. -/
theorem fetchIsBigEndian : Obligations.FetchIsBigEndian := by
  refine fun m pc => ⟨fun hout => ?outside, fun hlast => ?lastByte, fun hin => ⟨_, fetch_ok hin, wordOfBytes_toNat _ _⟩⟩
  case outside => rw [fetch_fault (by omega), Nat.max_eq_left hout]
  case lastByte =>
    have hmax : max pc.toNat 4096 = 4096 := Nat.max_eq_right (by omega)
    rw [fetch_fault (by omega), hmax]

/-! ## An Advance and a step -/

theorem decode_of_decodeBytes {hi lo : Byte} {i : Instr} {rest : List Byte}
    (h : decodeBytes [hi, lo] = .ok (i, rest)) : decode (wordOfBytes hi lo) = some i := by
  rw [decodeBytes] at h
  cases hd : decode (wordOfBytes hi lo) with
  | none =>
    rw [hd] at h
    cases h
  | some j =>
    rw [hd] at h
    cases h
    rfl

theorem step_of_advance {s : State} (h : s.nextOp = .advance) (hrun : s.status = .running) :
    step s = advanceRunning s.takeOp := by
  rw [step, h]
  exact advance_running ((takeOp_status s).trans hrun)

/-- Settles O6: taking the Advance off the host's order leaves `pc`, memory and the status alone, so the word at `pc` is
the one executed. -/
theorem stepRunsTheDecodedInstruction : Obligations.StepRunsTheDecodedInstruction := by
  intro s i hop hrun hpc hbytes
  have hfetch : fetch s.takeOp.mem s.takeOp.pc =
      .ok (wordOfBytes (s.mem.read s.pc.toNat) (s.mem.read (s.pc.toNat + 1))) := by
    rw [takeOp_mem, takeOp_pc]
    exact fetch_ok hpc
  exact ⟨(step_of_advance hop hrun).trans (advanceRunning_instr hfetch (decode_of_decodeBytes hbytes)), takeOp_eq s⟩

/-- Settles O8: the running Advance reports a word that does not decode. -/
theorem unknownWordIsReported : Obligations.UnknownWordIsReported :=
  fun _ _ hrun hf hd => (advance_running hrun).trans (advanceRunning_unknown hf hd)

/-- Settles O9: the running Advance takes the fault of its fetch. -/
theorem fetchFaultHalts : Obligations.FetchFaultHalts :=
  fun _ hrun hout => (advance_running hrun).trans (advanceRunning_fault hout)

/-- Settles O13: the jump that a parked machine executes sets `pc` to what it is. -/
theorem parkedAdvanceChangesNothing : Obligations.ParkedAdvanceChangesNothing := by
  rintro s ⟨hrun, w, nnn, hf, hd, htarget⟩
  rw [advance_running hrun, advanceRunning_instr hf hd]
  show Host.Outcome.next (s.setPc (zext16 nnn)) = .next s
  rw [htarget]
  rfl

/-! ## The host's order (R94, R103) -/

theorem whileRunning_halted {s : State} {c : Cause} (h : s.status = .halted c)
    (r : Host.Outcome State Fault Refusal) : whileRunning s r = .fault (.halted c) := by
  rw [whileRunning, h]

theorem applyOp_halted {s : State} {c : Cause} (h : s.status = .halted c) {op : HostOp} (ho : op ≠ .render) :
    applyOp op s = .fault (.halted c) := by
  cases op with
  | render => exact absurd rfl ho
  | advance | tick | keyEvent k p | setColours c' => exact whileRunning_halted h _

/-- Settles O10: the three cases of the host's order, and `whileRunning` on a halted machine. -/
theorem stepIsTheScheduledOperation : Obligations.StepIsTheScheduledOperation := by
  refine ⟨fun s op rest h => ?scheduled, fun s n h ht => ?openOrder, fun s h ht => ?advances,
    fun s c h => ⟨rfl, fun op ho => applyOp_halted h ho⟩⟩
  case scheduled =>
    rw [step, nextOp_cons h, takeOp_cons h]
    rfl
  case openOrder =>
    rw [step, nextOp_open h ht, takeOp_open h ht]
    rfl
  case advances => rw [step, nextOp_advances h ht, takeOp_advances h ht]

end Sys2Proof.Machine
end

section
/-! Return, the jump with offset, call and the register skips (40_control_flow.md R49 to R56). -/

namespace Sys2Proof.Machine

/-- Settles O15: the two laws of 00EE. -/
theorem returnPopsTheStack : Obligations.ReturnPopsTheStack := by
  refine ⟨by decide, fun s h0 => execRet_empty h0, fun s j hj => ⟨_, execRet_entry hj, rfl, ?_, rfl⟩⟩
  show (s.SP - 1#8).toNat = j.val
  bv_omega

theorem jumpTarget_toNat (r : Config.JumpOffsetReg) (nnn : Addr12) (s : State) :
    (jumpTarget r nnn s).toNat = nnn.toNat + (reg s (jumpRegister r nnn)).toNat := by
  have hnnn := nnn.isLt
  have hv := (reg s (jumpRegister r nnn)).isLt
  rw [jumpTarget, BitVec.toNat_add, zext16_toNat, BitVec.toNat_setWidth]
  omega

theorem jumpRegister_vx {nnn : Addr12} {x : Reg} (h : x.val = nnn.toNat / 256) : jumpRegister .vx nnn = x := by
  have hnnn := nnn.isLt
  apply Fin.ext
  rw [h]
  show (nnn.extractLsb' 8 4).toNat = _
  rw [BitVec.extractLsb'_toNat, Nat.shiftRight_eq_div_pow]
  omega

/-- Settles O17: the sum of a 12-bit address and a byte fits a word, whichever register the parameter names. -/
theorem jumpWithOffsetAddsV0 : Obligations.JumpWithOffsetAddsV0 := by
  intro nnn s
  refine ⟨⟨s.setPc (jumpTarget .v0 nnn s), rfl, jumpTarget_toNat .v0 nnn s, rfl⟩, fun x hx => ?_⟩
  rw [jumpTarget_toNat, jumpRegister_vx hx]

/-- Settles O18: the two laws of 2nnn. -/
theorem callPushesTheNextAddress : Obligations.CallPushesTheNextAddress := by
  refine fun nnn s => ⟨decode_packNNN_call nnn, fun hfull => execCall_full nnn hfull, fun j hj =>
    ⟨_, execCall_room nnn hj, zext16_toNat nnn, ?sp, ?entry, fun k hk => ?others, rfl⟩⟩
  case sp =>
    have hlt := j.isLt
    show (s.SP + 1#8).toNat = j.val + 1
    bv_omega
  case entry => exact Vector.getElem_set_self _
  case others => exact Vector.getElem_set_ne j.isLt k.isLt fun h => hk (Fin.ext h.symm)

/-- Settles O20: both instructions are `skipIf`, SNE at the negated condition. -/
theorem registerSkipsMovePcByFourOrTwo : Obligations.RegisterSkipsMovePcByFourOrTwo := by
  intro x y n s
  refine ⟨decode_packXYN_seReg x y n, decode_packXYN_sneReg x y n, ?_, ?_⟩
  · exact ⟨s.skipIf (decide (reg s x = reg s y)), rfl, skipIf_pc_of_holds s, skipIf_pc_of_not s,
      skipIf_changes_only_pc s _⟩
  · exact ⟨s.skipIf (decide (reg s x ≠ reg s y)), rfl, skipIf_pc_of_holds s,
      fun heq => skipIf_pc_of_not s (not_not_intro heq), skipIf_changes_only_pc s _⟩

end Sys2Proof.Machine
end

section
/-! The arithmetic with a flag, the sum into I and the random byte (41_alu.md R57 to R68, 42_index_random.md R70, R71). The
flag writers all end in `writeRegFlag`, so what is left of each is the value of its result and of its flag. -/

namespace Sys2Proof.Machine

theorem boolByte_decide (c : Prop) [Decidable c] : boolByte (decide c) = if c then 1#8 else 0#8 := by
  by_cases h : c <;> simp [boolByte, h]

theorem carryFlag_eq_ite (a b : Byte) : carryFlag a b = if a.toNat + b.toNat > 255 then 1#8 else 0#8 :=
  boolByte_decide _

theorem nonBorrowFlag_eq_ite (a b : Byte) : nonBorrowFlag a b = if a.toNat ≥ b.toNat then 1#8 else 0#8 :=
  boolByte_decide _

theorem sub_byte_toNat (a b : Byte) : (a - b).toNat = (256 + a.toNat - b.toNat) % 256 := by
  bv_omega

/-- Settles O23: the sum of bytes is the sum modulo 256. -/
theorem addSetsTheCarry : Obligations.AddSetsTheCarry := by
  intro x y s
  obtain ⟨t, hnext, hwrites⟩ :=
    writeRegFlag_writesWithFlag x (reg s x + reg s y) (carryFlag (reg s x) (reg s y)) s
  exact ⟨t, reg s x + reg s y, hnext, BitVec.toNat_add _ _, carryFlag_eq_ite _ _ ▸ hwrites⟩

/-- Settles O24: both operand orders of one difference and one flag. -/
theorem subtractionsSetTheNonBorrow : Obligations.SubtractionsSetTheNonBorrow := by
  intro x y s
  have hdiff : ∀ a b : Byte, ∃ t r, writeRegFlag x (a - b) (nonBorrowFlag a b) s = .next t ∧
      r.toNat = (256 + a.toNat - b.toNat) % 256 ∧
      WritesWithFlag s t x r (if a.toNat ≥ b.toNat then 1#8 else 0#8) := by
    intro a b
    obtain ⟨t, hnext, hwrites⟩ := writeRegFlag_writesWithFlag x (a - b) (nonBorrowFlag a b) s
    exact ⟨t, a - b, hnext, sub_byte_toNat a b, nonBorrowFlag_eq_ite a b ▸ hwrites⟩
  exact ⟨hdiff (reg s x) (reg s y), hdiff (reg s y) (reg s x)⟩

theorem lowBitFlag_toNat (v : Byte) : (lowBitFlag v).toNat = v.toNat % 2 := by
  rw [lowBitFlag, BitVec.toNat_and]
  exact Nat.and_one_is_mod _

theorem highBitFlag_toNat (v : Byte) : (highBitFlag v).toNat = v.toNat / 128 := by
  have hv := v.isLt
  have hbit : (v.toNat >>> 7) % 2 = v.toNat / 128 := by
    rw [Nat.shiftRight_eq_div_pow]
    omega
  rw [highBitFlag, BitVec.toNat_and, BitVec.toNat_ushiftRight]
  exact (Nat.and_one_is_mod _).trans hbit

theorem shiftLeft_one_toNat (v : Byte) : (v <<< 1).toNat = v.toNat * 2 % 256 := by
  rw [BitVec.toNat_shiftLeft, Nat.shiftLeft_eq]

theorem ushiftRight_one_toNat (v : Byte) : (v >>> 1).toNat = v.toNat / 2 := by
  rw [BitVec.toNat_ushiftRight, Nat.shiftRight_eq_div_pow]

/-- Settles O25: the shift parameter names Vx, and the flags are the bits moved out. -/
theorem shiftsMoveOneBitIntoVF : Obligations.ShiftsMoveOneBitIntoVF := by
  intro x y s
  constructor
  · obtain ⟨t, hnext, hwrites⟩ := writeRegFlag_writesWithFlag x (reg s x >>> 1) (lowBitFlag (reg s x)) s
    exact ⟨t, _, _, hnext, ushiftRight_one_toNat _, lowBitFlag_toNat _, hwrites⟩
  · obtain ⟨t, hnext, hwrites⟩ := writeRegFlag_writesWithFlag x (reg s x <<< 1) (highBitFlag (reg s x)) s
    exact ⟨t, _, _, hnext, shiftLeft_one_toNat _, highBitFlag_toNat _, hwrites⟩

/-- Settles O27: the index write at the sum, whose byte keeps its value when it is widened. -/
theorem addIndexWrapsWithNoFlag : Obligations.AddIndexWrapsWithNoFlag := by
  intro x s
  obtain ⟨t, hnext, hI, hpc, hframe⟩ := writeIndex_writes_only_I_and_pc (s.I + (reg s x).setWidth 16) s
  have hvalue : t.I.toNat = (s.I.toNat + (reg s x).toNat) % 65536 := by
    rw [hI, BitVec.toNat_add, BitVec.toNat_setWidth_of_le (by decide)]
  exact ⟨t, hnext, hvalue, hpc, hframe⟩

/-- Settles O28: RND is `writeReg` after the draw is counted, and an AND has no bit that its mask has not. -/
theorem randomByteIsMasked : Obligations.RandomByteIsMasked := by
  intro x kk s
  refine ⟨⟨_, rfl, reg_setV_self _ x _, fun k hk => reg_setV_ne _ _ hk, rfl, rfl, rfl⟩,
    fun r => ⟨_, rfl, reg_setV_self _ x _, fun b hb => ?_⟩⟩
  have hval : reg ((s.countDraw.setV x (r &&& kk)).advancePc) x = r &&& kk := reg_setV_self _ x _
  rw [hval, BitVec.getLsbD_and, hb, Bool.and_false]

end Sys2Proof.Machine
end

section
/-! The faults of data accesses and the wait for a key (60_exceptions.md R89 to R91, 44_keypad_timers.md R80, R81). The spec's
two names `waiting` and `candidate` determine the sub-state, so each case of R80 is one of the laws of `execLdVxK`. -/

namespace Sys2Proof.Machine

/-- Settles O31: the fault laws of the four instructions. -/
theorem dataAccessFaultsArePrecise : Obligations.DataAccessFaultsArePrecise := fun x y _ _ =>
  ⟨fun _ hn hout => execDrw_fault x y hn hout, fun hout => execLdB_fault x hout,
    fun hout => ⟨execLdMemStore_fault x (by omega), execLdMemLoad_fault x (by omega)⟩⟩

/-! ## The sub-state from the spec's two names (R22) -/

theorem wait_of_not_waiting {s : State} (h : s.waiting = false) : s.wait = .idle := by
  cases hw : s.wait with
  | idle => rfl
  | awaitingPress | awaitingRelease k =>
    simp only [State.waiting, hw] at h
    cases h

theorem wait_of_candidate {s : State} {k : Key} (h : s.candidate = some k) : s.wait = .awaitingRelease k := by
  cases hw : s.wait with
  | idle | awaitingPress =>
    simp only [State.candidate, hw] at h
    cases h
  | awaitingRelease j =>
    simp only [State.candidate, hw] at h
    rw [Option.some.inj h]

theorem wait_of_no_candidate {s : State} (h : s.waiting = true) (hc : s.candidate = none) : s.wait = .awaitingPress := by
  cases hw : s.wait with
  | idle =>
    simp only [State.waiting, hw] at h
    cases h
  | awaitingPress => rfl
  | awaitingRelease k =>
    simp only [State.candidate, hw] at hc
    cases hc

theorem key_byte_toNat (k : Key) : (BitVec.ofNat 8 k.val).toNat = k.val := by
  rw [BitVec.toNat_ofNat, Nat.mod_eq_of_lt (by omega)]

/-- Settles O34: the four laws of `execLdVxK`. -/
theorem waitForKeyCompletesOnRelease : Obligations.WaitForKeyCompletesOnRelease := by
  refine fun x s => ⟨fun h => ?idle, fun h hc => execLdVxK_awaitingPress x (wait_of_no_candidate h hc),
    fun k hc hk => execLdVxK_held x (wait_of_candidate hc) hk, fun k hc hk => ?released⟩
  case idle => exact ⟨_, execLdVxK_idle x (wait_of_not_waiting h), rfl, rfl, rfl⟩
  case released =>
    refine ⟨_, execLdVxK_released x (wait_of_candidate hc) (ne_true_of_eq_false hk), ?value,
      fun r hr => reg_setV_ne (s.setWait .idle) _ hr, rfl, rfl, rfl, rfl⟩
    rw [reg_advancePc, reg_setV_self, key_byte_toNat]

/-! ## A whole wait (R80, its Example) -/

theorem run_succ_of_next (M : Host.Core) (k : Nat) {s t : M.State} (h : M.step s = .next t) :
    M.run (k + 1) s = M.run k t := by
  rw [Host.Core.run, h]

theorem run_of_step {s t : State} (k : Nat) (h : step s = .next t) :
    Host.Core.run core (k + 1) s = Host.Core.run core k t :=
  run_succ_of_next core k h

theorem step_scheduled_keyEvent {s : State} {k : Key} {p : Bool} {rest : List HostOp} (hrun : s.status = .running)
    (h : s.schedule = .keyEvent k p :: rest) :
    step s = .next (((s.setSchedule rest).setKey k p).setWait (waitAfterKey k p s.wait)) := by
  rw [step, nextOp_cons h, takeOp_cons h]
  exact applyOp_keyEvent_running k p (s := s.setSchedule rest) hrun

/-- A running machine whose word at `pc` is Fx0A for register `x`. -/
def State.atFx0A (s : State) (x : Reg) : Prop :=
  s.status = .running ∧ ∃ w, fetch s.mem s.pc = .ok w ∧ decode w = some (.ldVxK x)

theorem step_atFx0A {s : State} {x : Reg} {rest : List HostOp} (h : s.atFx0A x) (hs : s.schedule = .advance :: rest) :
    step s = execLdVxK x (s.setSchedule rest) := by
  obtain ⟨hrun, w, hf, hd⟩ := h
  rw [step_of_advance (nextOp_cons hs) hrun, takeOp_cons hs]
  exact advanceRunning_instr (s := s.setSchedule rest) hf hd

/-- From `s` to `t`, a wait for register `x` ended with key `k`: other fields than `V`, `pc`, the latches, the sub-state and
the schedule did not change. -/
def WaitEnds (s t : State) (x : Reg) (k : Key) : Prop :=
  (reg t x).toNat = k.val ∧ t.pc = s.pc + 2#16 ∧
    t = { s with V := t.V, pc := t.pc, key := t.key, wait := .idle, schedule := [] }

/-- A wait that ends after a step ends from the state before it: a step before the last changed only what a wait may. -/
theorem WaitEnds.of_step {s t : State} {x : Reg} {k : Key} (ops : List HostOp) (keys : Vector Bool 16) (w : WaitState)
    (h : WaitEnds { s with key := keys, wait := w, schedule := ops } t x k) : WaitEnds s t x k := h

theorem run_release {s : State} {x : Reg} {k : Key} (h : s.atFx0A x) (hw : s.wait = .awaitingRelease k)
    (hs : s.schedule = [.keyEvent k false, .advance]) :
    ∃ t, Host.Core.run core 2 s = .next t ∧ WaitEnds s t x k := by
  have hrelease : step s = .next (((s.setSchedule [.advance]).setKey k false).setWait (.awaitingRelease k)) :=
    (step_scheduled_keyEvent h.1 hs).trans (by rw [hw]; rfl)
  have hup : ¬ keyDown (((s.setSchedule []).setKey k false).setWait (.awaitingRelease k)) k = true :=
    ne_true_of_eq_false (Vector.getElem_set_self k.isLt)
  have hend : step (((s.setSchedule [.advance]).setKey k false).setWait (.awaitingRelease k)) =
      .next ((((s.setSchedule []).setKey k false).setWait .idle).setV x (BitVec.ofNat 8 k.val)).advancePc :=
    Eq.trans (step_atFx0A h rfl) (execLdVxK_released x rfl hup)
  refine ⟨_, (run_of_step 1 hrelease).trans (run_of_step 0 hend), ?_, rfl, rfl⟩
  rw [reg_advancePc, reg_setV_self, key_byte_toNat]

theorem run_hold {s : State} {x : Reg} {k : Key} (h : s.atFx0A x) (hw : s.wait = .awaitingRelease k)
    (hk : keyDown s k = true) (hs : s.schedule = [.advance, .keyEvent k false, .advance]) :
    ∃ t, Host.Core.run core 3 s = .next t ∧ WaitEnds s t x k := by
  have hhold : step s = .next (s.setSchedule [.keyEvent k false, .advance]) :=
    Eq.trans (step_atFx0A h hs) (execLdVxK_held x hw hk)
  obtain ⟨t, hrun, hends⟩ := run_release (s := s.setSchedule [.keyEvent k false, .advance]) h hw rfl
  exact ⟨t, (run_of_step 2 hhold).trans hrun, WaitEnds.of_step _ _ _ hends⟩

theorem run_press {s : State} {x : Reg} {k : Key} (h : s.atFx0A x) (hw : s.wait = .awaitingPress)
    (hs : s.schedule = [.keyEvent k true, .advance, .keyEvent k false, .advance]) :
    ∃ t, Host.Core.run core 4 s = .next t ∧ WaitEnds s t x k := by
  have hpress : step s = .next
      (((s.setSchedule [.advance, .keyEvent k false, .advance]).setKey k true).setWait (.awaitingRelease k)) :=
    (step_scheduled_keyEvent h.1 hs).trans (by rw [hw]; rfl)
  have hdown : keyDown ((s.setSchedule [.advance, .keyEvent k false, .advance]).setKey k true) k = true :=
    Vector.getElem_set_self k.isLt
  obtain ⟨t, hrun, hends⟩ := run_hold
    (s := ((s.setSchedule [.advance, .keyEvent k false, .advance]).setKey k true).setWait (.awaitingRelease k))
    h rfl hdown rfl
  exact ⟨t, (run_of_step 3 hpress).trans hrun, WaitEnds.of_step _ _ _ hends⟩

/-- Settles O36: an idle Fx0A begins the wait, and then the press, the Fx0A at the pressed key, the release and the Fx0A
that finds the key released are taken one before the other. -/
theorem waitEndsAfterPressAndRelease : Obligations.WaitEndsAfterPressAndRelease := by
  intro s w x k hrun hwaiting hf hd hs
  have hidle : s.wait = .idle := wait_of_not_waiting hwaiting
  have hat : s.atFx0A x := ⟨hrun, w, hf, hd⟩
  have hbegin : step s =
      .next ((s.setSchedule [.keyEvent k true, .advance, .keyEvent k false, .advance]).setWait .awaitingPress) :=
    Eq.trans (step_atFx0A hat hs) (execLdVxK_idle x hidle)
  obtain ⟨t, hrest, hends⟩ := run_press
    (s := (s.setSchedule [.keyEvent k true, .advance, .keyEvent k false, .advance]).setWait .awaitingPress) hat rfl rfl
  obtain ⟨hvalue, hpc, hframe⟩ := WaitEnds.of_step _ _ _ hends
  refine ⟨t, (run_of_step 4 hbegin).trans hrest, hvalue, hpc, ?idle, ?frame⟩
  case idle =>
    rw [hframe]
    rfl
  case frame =>
    rw [← hidle] at hframe
    exact hframe

end Sys2Proof.Machine
end

section
/-! The stores and the load (45_memory_ops.md R83 to R85), the byte memory itself (20_memory.md R28, R33), and the image
that Construct builds (70_reset_and_hazards.md R105, R106). -/

namespace Sys2Proof.Machine

/-! ## Stores and the load -/

theorem bcdDigits_toNat (v : Byte) :
    ((bcdDigits v).getD 0 0#8).toNat = v.toNat / 100 ∧ ((bcdDigits v).getD 1 0#8).toNat = v.toNat / 10 % 10 ∧
      ((bcdDigits v).getD 2 0#8).toNat = v.toNat % 10 := by
  simp [bcdDigits]

/-- Settles O38: the stored image is the three digits. -/
theorem bcdStoresThreeDigits : Obligations.BcdStoresThreeDigits := by
  rintro x s ⟨hm, -⟩ hin
  obtain ⟨hundreds, tens, ones⟩ := bcdDigits_toNat (reg s x)
  have hfits : s.I.toNat + (bcdDigits (reg s x)).length ≤ 4096 := by rw [bcdDigits_length]; omega
  have hread : ∀ i < 3, (storeImage s.mem s.I.toNat (bcdDigits (reg s x))).read (s.I.toNat + i) =
      (bcdDigits (reg s x)).getD i 0#8 := fun i hi => storeImage_read_inside hm hfits (by rwa [bcdDigits_length])
  refine ⟨_, execLdB_ok x (by omega), ?_, ?_, ?_, fun a ha => storeImage_read_outside hm hfits ha, rfl, rfl⟩
  · exact (congrArg BitVec.toNat (hread 0 (by decide))).trans hundreds
  · exact (congrArg BitVec.toNat (hread 1 (by decide))).trans tens
  · exact (congrArg BitVec.toNat (hread 2 (by decide))).trans ones

/-- What the bytes of a dump read as. -/
theorem dump_read {x r : Reg} {s : State} (hm : s.mem.wf = true) (hin : s.I.toNat + x.val < 4096) (hr : r ≤ x) :
    (storeImage s.mem s.I.toNat (regsThrough s x)).read (s.I.toNat + r.val) = reg s r := by
  have hlt : r.val < x.val + 1 := Nat.lt_succ_of_le hr
  rw [storeImage_read_inside hm (by rw [regsThrough_length]; omega) (by rwa [regsThrough_length]),
    regsThrough_getD s hr]

/-- Settles O39: the stored image is the registers V0 to Vx. -/
theorem registerDumpStoresV0ThroughVx : Obligations.RegisterDumpStoresV0ThroughVx := by
  rintro x s ⟨hm, -⟩ hin
  have hfits : s.I.toNat + (regsThrough s x).length ≤ 4096 := by rw [regsThrough_length]; omega
  refine ⟨_, execLdMemStore_ok x hin, fun r hr => dump_read hm hin hr, fun a ha => ?_, indexAfterBlock_toNat hin, rfl,
    rfl⟩
  exact storeImage_read_outside hm hfits (by rw [regsThrough_length]; omega)

/-- The state a load inside memory ends in. -/
def loaded (x : Reg) (s : State) : State :=
  ((s.setRegs (loadRegs (blockAt s.mem s.I.toNat (x.val + 1)) s.V)).setI (indexAfterBlock s x)).advancePc

theorem exec_ldMemLoad_eq_loaded {x : Reg} {s : State} (h : s.I.toNat + x.val < 4096) :
    exec (.ldMemLoad x) s = .next (loaded x s) := execLdMemLoad_ok x h

theorem reg_loaded_through {x r : Reg} (s : State) (hr : r ≤ x) :
    reg (loaded x s) r = s.mem.read (s.I.toNat + r.val) := by
  rw [loaded, reg_advancePc, reg_setI, reg_loadRegs, blockAt_getD _ _ (Nat.lt_succ_of_le hr)]

theorem reg_loaded_beyond {x r : Reg} (s : State) (hr : x < r) : reg (loaded x s) r = reg s r := by
  rw [loaded, reg_advancePc, reg_setI, reg_loadRegs, blockAt_getD_beyond _ _ hr]

theorem loaded_pc (x : Reg) (s : State) : (loaded x s).pc = s.pc + 2#16 := by
  rw [loaded, State.advancePc_pc, State.setI_pc, State.setRegs_pc]

/-- Setting the registers, `I` and `pc` changes nothing else. -/
theorem setRegs_setI_advancePc_frame (s : State) (v : Vector Byte 16) (a : Word) :
    ((s.setRegs v).setI a).advancePc =
      { s with V := ((s.setRegs v).setI a).advancePc.V, I := ((s.setRegs v).setI a).advancePc.I,
               pc := ((s.setRegs v).setI a).advancePc.pc } := rfl

/-- Settles O40: the loaded registers are the block read from I, and the others are kept. -/
theorem registerLoadReadsV0ThroughVx : Obligations.RegisterLoadReadsV0ThroughVx := fun x s hin =>
  ⟨_, exec_ldMemLoad_eq_loaded hin, fun _ hr => reg_loaded_through s hr, fun _ hr => reg_loaded_beyond s hr,
    indexAfterBlock_toNat hin, loaded_pc x s, setRegs_setI_advancePc_frame s _ _⟩

/-- Settles O41: the load reads the bytes the dump stored. -/
theorem dumpThenLoadRestoresTheRegisters : Obligations.DumpThenLoadRestoresTheRegisters := by
  rintro x s u ⟨hm, -⟩ hin
  refine ⟨_, execLdMemStore_ok x hin, fun hmem hI => ⟨_, exec_ldMemLoad_eq_loaded (hI ▸ hin), fun r hr => ?value, ?index⟩⟩
  case value =>
    rw [reg_loaded_through u hr, hmem, hI]
    exact dump_read hm hin hr
  case index =>
    show indexAfterBlock u x = indexAfterBlock s x
    rw [indexAfterBlock, hI, indexAfterBlock]

/-! ## The byte memory (R28, R33) -/

theorem memRead_write_other {m : Memory} {a c : Nat} (v : Byte) (hm : m.wf = true) (hc : c ≠ a) :
    memRead (m.write a v) c = memRead m c := by
  rw [memRead, memRead, Memory.read_write hm, if_neg hc]

/-- Settles O42: the laws of one write, on both sides of the end of memory. -/
theorem writeChangesExactlyTheAddressedByte : Obligations.WriteChangesExactlyTheAddressedByte := by
  refine fun m a v hm => ⟨fun ha => ⟨m.write a v, memWrite_ok v ha, Memory.wf_write hm ha v, ?same,
    fun c hc => memRead_write_other v hm hc⟩, fun ha => ⟨memWrite_fault v ha, memRead_fault ha⟩⟩
  rw [memRead_ok ha, Memory.read_write hm, if_pos rfl]

/-- An entry of a canonical memory differs from what its address reads as when unlisted. -/
theorem read_head_ne_resetByte {lo k : Nat} {b : Byte} {rest : Memory} (h : Memory.wfFrom lo ((k, b) :: rest) = true) :
    Memory.read ((k, b) :: rest) k ≠ resetByte k := by
  obtain ⟨-, -, hb, -⟩ := Memory.wfFrom_cons.1 h
  rw [Memory.read, if_pos rfl]
  exact hb

theorem head_lt_of_wfFrom {lo k : Nat} {b : Byte} {rest : Memory} (h : Memory.wfFrom lo ((k, b) :: rest) = true) :
    k < 4096 := by
  obtain ⟨-, hk, -, -⟩ := Memory.wfFrom_cons.1 h
  exact hk

/-- Of two canonical memories that read alike, neither has an entry below the first of the other. -/
theorem head_le_of_read_alike {lo lo' k k' : Nat} {b b' : Byte} {rest rest' : Memory}
    (h : Memory.wfFrom lo ((k, b) :: rest) = true) (h' : Memory.wfFrom lo' ((k', b') :: rest') = true)
    (halike : ∀ a, a < 4096 → Memory.read ((k, b) :: rest) a = Memory.read ((k', b') :: rest') a) : k' ≤ k := by
  by_contra hlt
  obtain ⟨-, htail⟩ := Memory.wfFrom_cons.1 h'
  have hwf : Memory.wfFrom k' ((k', b') :: rest') = true := Memory.wfFrom_cons.2 ⟨Nat.le_refl k', htail⟩
  have hbelow : Memory.read ((k', b') :: rest') k = resetByte k := Memory.read_below hwf (Nat.lt_of_not_le hlt)
  exact read_head_ne_resetByte h ((halike k (head_lt_of_wfFrom h)).trans hbelow)

theorem read_tail {k a : Nat} {b : Byte} {rest : Memory} (h : k < a) : Memory.read ((k, b) :: rest) a = rest.read a := by
  rw [Memory.read, if_neg (Nat.ne_of_lt h)]

/-- Behind equal first addresses the rests read alike, being both unlisted up to there. -/
theorem tails_read_alike {k : Nat} {b b' : Byte} {rest rest' : Memory} (h : Memory.wfFrom (k + 1) rest = true)
    (h' : Memory.wfFrom (k + 1) rest' = true)
    (halike : ∀ a, a < 4096 → Memory.read ((k, b) :: rest) a = Memory.read ((k, b') :: rest') a) (a : Nat)
    (ha : a < 4096) : rest.read a = rest'.read a := by
  rcases Nat.lt_or_ge k a with hlt | hge
  · have := halike a ha
    rwa [read_tail hlt, read_tail hlt] at this
  · rw [Memory.read_below h (Nat.lt_succ_of_le hge), Memory.read_below h' (Nat.lt_succ_of_le hge)]

theorem eq_of_read_alike {lo lo' : Nat} {m m' : Memory} (h : Memory.wfFrom lo m = true) (h' : Memory.wfFrom lo' m' = true)
    (halike : ∀ a, a < 4096 → m.read a = m'.read a) : m = m' := by
  induction m generalizing lo lo' m' with
  | nil =>
    cases m' with
    | nil => rfl
    | cons e' rest' => exact absurd (halike e'.1 (head_lt_of_wfFrom h')).symm (read_head_ne_resetByte h')
  | cons e rest ih =>
    cases m' with
    | nil => exact absurd (halike e.1 (head_lt_of_wfFrom h)) (read_head_ne_resetByte h)
    | cons e' rest' =>
      obtain ⟨k, b⟩ := e
      obtain ⟨k', b'⟩ := e'
      have hk : k = k' := Nat.le_antisymm (head_le_of_read_alike h' h fun a ha => (halike a ha).symm)
        (head_le_of_read_alike h h' halike)
      subst hk
      obtain ⟨-, hlt, -, hrest⟩ := Memory.wfFrom_cons.1 h
      obtain ⟨-, -, -, hrest'⟩ := Memory.wfFrom_cons.1 h'
      have hb : b = b' := by
        have := halike k hlt
        rwa [Memory.read, Memory.read, if_pos rfl, if_pos rfl] at this
      rw [hb, ih hrest hrest' (tails_read_alike hrest hrest' halike)]

/-- Settles O43: by induction, the first entries agree in address and byte. -/
theorem memoriesThatReadAlikeAreEqual : Obligations.MemoriesThatReadAlikeAreEqual :=
  fun _ _ h h' halike => eq_of_read_alike h h' halike

/-! ## Construct and the reset state -/

theorem resetByte_beyond_font {a : Nat} (h : 80 ≤ a) : resetByte a = 0#8 := by
  have hlen : fontGlyphs.length ≤ a := h
  rw [resetByte, if_pos (Nat.zero_le a)]
  exact List.getD_eq_default _ _ hlen

/-- The font table of R107, five bytes to a number, is what the first 80 addresses read as. -/
theorem resetByte_font : ∀ (d : Fin 16) (r : Fin 5), (resetByte (5 * d.val + r.val)).toNat =
    [0xF0909090F0, 0x2060202070, 0xF010F080F0, 0xF010F010F0, 0x9090F01010, 0xF080F010F0, 0xF080F090F0, 0xF010204040,
      0xF090F090F0, 0xF090F010F0, 0xF090F09090, 0xE090E090E0, 0xF0808080F0, 0xE0909090E0, 0xF080F080F0,
      0xF080F08080].getD d.val 0 / 256 ^ (4 - r.val) % 256 := by
  decide

theorem construct_too_long {rom : List Byte} (colours : Option Colours) (h : 3584 < rom.length) :
    construct rom colours = .error ⟨rom.length⟩ := if_pos h

theorem construct_fits {rom : List Byte} (colours : Option Colours) (h : rom.length ≤ 3584) :
    construct rom colours =
      .ok { State.reset with mem := storeImage [] Config.progOrigin rom, colours := colours } :=
  if_neg (Nat.not_lt.2 h)

/-- Settles O59: inside the ROM's range memory reads as the ROM, outside it as the image of an empty ROM. -/
theorem constructBuildsTheImageOrFails : Obligations.ConstructBuildsTheImageOrFails := by
  refine fun rom colours => ⟨construct_too_long colours, fun hlen => ⟨_, construct_fits colours hlen, ?_⟩⟩
  have hfits : 0x200 + rom.length ≤ 4096 := by omega
  have hwf : Memory.wf [] = true := rfl
  have houtside : ∀ a, a < 0x200 ∨ 0x200 + rom.length ≤ a →
      (storeImage [] 0x200 rom).read a = resetByte a := fun a ha => storeImage_read_outside hwf hfits ha
  refine ⟨fun d r => ?font, fun a hlo hhi => ?zeros, fun i hi => ?rom, fun a hlo _ => ?rest,
    ⟨storeImage_wf hwf hfits, (by decide : (0#8).toNat ≤ 16)⟩, rfl⟩
  case font => exact (congrArg BitVec.toNat (houtside _ (by omega))).trans (resetByte_font d r)
  case zeros => exact (houtside a (.inl hhi)).trans (resetByte_beyond_font hlo)
  case rom =>
    have hread : (storeImage [] 0x200 rom).read (0x200 + i) = rom.getD i 0#8 := storeImage_read_inside hwf hfits hi
    refine Eq.trans ?_ (congrArg some hread.symm)
    rw [List.getD_eq_getElem _ _ hi, List.getElem?_eq_getElem hi]
  case rest => exact (houtside a (.inr hlo)).trans (resetByte_beyond_font (by omega))

/-- Settles O60: every field is a literal of `State.reset`. -/
theorem resetValuesAreTheListedOnes : Obligations.ResetValuesAreTheListedOnes :=
  ⟨rfl, by decide, rfl, rfl, rfl, by decide, rfl, rfl, by decide, cell_blankDisplay, rfl, rfl, rfl, rfl, rfl, rfl⟩

/-- Settles O44: SP is 0 and the machine is idle, so only the empty memory and `pc` are left to check. -/
theorem resetMeetsTheInvariants : Obligations.ResetMeetsTheInvariants :=
  ⟨⟨rfl, by decide⟩, ⟨by decide, by decide⟩, waitsAtFx0A_of_not_waiting rfl⟩

/-! ## The render colours (R98) -/

theorem applyOp_setColours_first {s : State} (c : Colours) (hrun : s.status = .running) (h : s.colours = none) :
    applyOp (.setColours c) s = .next (s.setColours c) := by
  simp only [applyOp, setColours, whileRunning, hrun, h]

theorem applyOp_setColours_later {s : State} {c : Colours} (c' : Colours) (hrun : s.status = .running)
    (h : s.colours = some c) : applyOp (.setColours c') s = .refused .coloursAlreadySet := by
  simp only [applyOp, setColours, whileRunning, hrun, h]

theorem construct_colours {rom : List Byte} {colours : Option Colours} {s : State} (h : construct rom colours = .ok s) :
    s.status = .running ∧ s.colours = colours := by
  rcases Nat.lt_or_ge 3584 rom.length with hlong | hfits
  · rw [construct_too_long colours hlong] at h
    cases h
  · rw [construct_fits colours hfits] at h
    cases h
    exact ⟨rfl, rfl⟩

/-- Settles O58: the first setting, and the refusal wherever there was one. -/
theorem coloursAreSetOnce : Obligations.ColoursAreSetOnce := by
  refine ⟨fun s c hrun h => ⟨s.setColours c, applyOp_setColours_first c hrun h, rfl, rfl, rfl, fun c' => ?_⟩,
    fun s c rom h => ?_⟩
  · exact applyOp_setColours_later c' hrun (State.setColours_colours s c)
  · obtain ⟨hrun, hc⟩ := construct_colours h
    refine ⟨?_, ?_, fun c' => applyOp_setColours_later c' hrun hc⟩
    · simp only [fgColour, hc]
    · simp only [bgColour, hc]

end Sys2Proof.Machine
end

section
/-! The sprite draw (43_display.md R72, R74): `drawRows_spec` in the words of Safety.lean, for the rows that Dxyn reads from
memory. -/

namespace Sys2Proof.Machine

/-- What Dxyn draws, its rows lying in memory. -/
def drawn (x y : Reg) (n : Nat) (s : State) : DrawResult :=
  drawRows (reg s x).toNat (reg s y).toNat (blockAt s.mem s.I.toNat n) ⟨s.disp, false⟩

/-- The cells Dxyn covers. -/
def covers (x y : Reg) (n : Nat) (s : State) (px : Fin 64) (py : Fin 32) : Prop :=
  spriteCovers s.mem s.I.toNat (reg s x).toNat (reg s y).toNat n px py

theorem exec_drw_eq_drawn (x y : Reg) {n : Nat} {s : State} (h : n = 0 ∨ s.I.toNat + n ≤ 4096) :
    exec (.drw x y n) s = .next ((s.setDisp (drawn x y n s).disp).setV VF (boolByte (drawn x y n s).hit)).advancePc :=
  execDrw_ok x y h

theorem rows_le_of_wf {x y : Reg} {n : Nat} (h : (Instr.drw x y n).wf = true) : n ≤ 32 :=
  (of_decide_eq_true h : n ≤ maxRows).trans (by decide)

open Classical in
theorem cell_drawn {x y : Reg} {n : Nat} (hn : n ≤ 32) (s : State) (px : Fin 64) (py : Fin 32) :
    cell (drawn x y n s).disp px py = (cell s.disp px py ^^ decide (covers x y n s px py)) := by
  obtain ⟨hcell, -⟩ := drawRows_spec (reg s x).toNat (reg s y).toNat (blockAt s.mem s.I.toNat n) ⟨s.disp, false⟩
    (by rwa [blockAt_length])
  have hcovers : decide (rowsCover (reg s x).toNat (reg s y).toNat (blockAt s.mem s.I.toNat n) px py) =
      decide (covers x y n s px py) := decide_eq_decide.2 (rowsCover_blockAt ..)
  rw [drawn, hcell, hcovers]

theorem cell_drawn_ne_iff {x y : Reg} {n : Nat} (hn : n ≤ 32) (s : State) (px : Fin 64) (py : Fin 32) :
    cell (drawn x y n s).disp px py ≠ cell s.disp px py ↔ covers x y n s px py := by
  classical
  rw [cell_drawn hn]
  by_cases h : covers x y n s px py <;> simp [h]

theorem cell_cleared_iff {x y : Reg} {n : Nat} (hn : n ≤ 32) (s : State) (px : Fin 64) (py : Fin 32) :
    cell s.disp px py = true ∧ cell (drawn x y n s).disp px py = false ↔
      cell s.disp px py = true ∧ covers x y n s px py := by
  classical
  rw [cell_drawn hn]
  by_cases h : covers x y n s px py <;> simp +contextual [h]

theorem hit_drawn_iff {x y : Reg} {n : Nat} (hn : n ≤ 32) (s : State) :
    (drawn x y n s).hit = true ↔
      ∃ px py, cell s.disp px py = true ∧ cell (drawn x y n s).disp px py = false := by
  obtain ⟨-, hhit⟩ := drawRows_spec (reg s x).toNat (reg s y).toNat (blockAt s.mem s.I.toNat n) ⟨s.disp, false⟩
    (by rwa [blockAt_length])
  simp only [cell_cleared_iff hn, covers, ← rowsCover_blockAt]
  rw [drawn, hhit]
  simp only [Bool.false_eq_true, false_or]

/-- Settles O29: the drawn cells and the hit of `drawRows_spec`; VF is the byte of the hit. -/
theorem drawTogglesExactlyTheSpriteCells : Obligations.DrawTogglesExactlyTheSpriteCells := by
  intro x y n s hwf hin
  have hn := rows_le_of_wf hwf
  have hVF : reg (((s.setDisp (drawn x y n s).disp).setV VF (boolByte (drawn x y n s).hit)).advancePc) VF =
      boolByte (drawn x y n s).hit := by rw [reg_advancePc, reg_setV_self]
  refine ⟨_, exec_drw_eq_drawn x y hin, cell_drawn_ne_iff hn s, fun h => ?_, fun h => ?_,
    fun k hk => reg_setV_ne (s.setDisp _) _ hk, rfl, rfl⟩
  · rw [hVF, (hit_drawn_iff hn s).2 h]
    rfl
  · rw [hVF, Bool.eq_false_of_not_eq_true (mt (hit_drawn_iff hn s).1 h)]
    rfl

/-- Settles O30: with the coordinates unchanged the second draw covers the same cells, and toggling twice is nothing. -/
theorem drawingTwiceRestoresTheDisplay : Obligations.DrawingTwiceRestoresTheDisplay := by
  classical
  intro x y n s hwf hx hy hin
  have hn := rows_le_of_wf hwf
  obtain ⟨t, ht, hdisp, hmem, hI, hV⟩ : ∃ t, exec (.drw x y n) s = .next t ∧ t.disp = (drawn x y n s).disp ∧
      t.mem = s.mem ∧ t.I = s.I ∧ ∀ k, k ≠ VF → reg t k = reg s k :=
    ⟨_, exec_drw_eq_drawn x y hin, rfl, rfl, rfl, fun k hk => reg_setV_ne (s.setDisp _) _ hk⟩
  have hsame : covers x y n t = covers x y n s := by
    funext px py
    rw [covers, covers, hmem, hI, hV x hx, hV y hy]
  refine ⟨t, _, ht, exec_drw_eq_drawn x y (hI ▸ hin), display_ext fun px py => ?_⟩
  show cell (drawn x y n t).disp px py = cell s.disp px py
  rw [cell_drawn hn, hdisp, cell_drawn hn, hsame, Bool.xor_assoc, Bool.xor_self, Bool.xor_false]

end Sys2Proof.Machine
end
